-- ==== Sys2Proof/Word.lean ====
section
/-! DEFINITION. The byte, the unit of every stream the codec touches (spec R9, R51). -/

namespace Sys2Proof

/-- A byte: an 8-bit unsigned value, bit i of weight 2^i (spec R9). -/
abbrev Byte := BitVec 8

end Sys2Proof
end

