-- ==== Sys2Proof/Config.lean ====
section
/-! DEFINITION. The codec's parameters (spec R7) and its free values. -/

namespace Sys2Proof

/-- What the decoder does with a received data length code of 9 to 15 (spec R7, R140). -/
inductive DlcPolicy where
  | pass
  | reject
deriving DecidableEq, Repr

/-- This hardware's DLC_POLICY (spec R7); `State.reset` takes it, log 4. -/
abbrev Config.dlcPolicy : DlcPolicy := .pass

/-- TS_W, the width in bits of the timestamp input: OPEN (spec R7, R34).
It has no body, so every claim holds for every width (log 3). -/
opaque Config.tsWidth : Nat

/-- The value the TS source presents at the n-th sample: a free draw (spec R34); log 3. -/
opaque Config.tsSample : Nat → BitVec Config.tsWidth

end Sys2Proof
end

