-- ==== Sys2Proof/Syntax.lean ====
section
/-! DEFINITION. The instructions (one constructor per row of the opcode table), the command record of
the command port, and the CAN frame. -/

namespace Sys2Proof

/-- A command as the host presents it on the command port (spec R80, R81). -/
structure Command where
  op    : BitVec 2
  id    : BitVec 32
  ext   : Bool
  rtr   : Bool
  dlc   : BitVec 4
  plen  : BitVec 4
  pdata : Vector Byte 8
deriving DecidableEq, Repr

/-- What the unit dispatches on (spec R86): a command of the command port, or a type/flags byte of the
wire. `hi` is t[7:6], which selects nothing and is kept for RES_TYPE (spec R77). -/
inductive Instr where
  /-- ENCODE (spec R110) with the operand fields of spec R81. -/
  | encode (id : BitVec 32) (ext rtr : Bool) (dlc plen : BitVec 4) (pdata : List Byte)
  /-- DECODE (spec R135); it has no operands (spec R82). -/
  | decode
  /-- CMD_OP = 0b00, reserved (spec R83). -/
  | reservedCmd00
  /-- CMD_OP = 0b11, reserved (spec R83). -/
  | reservedCmd11
  /-- type byte with t[5:4] = 0b00 (spec R86). -/
  | wireStdData (hi : BitVec 2) (dlc : BitVec 4)
  /-- type byte with t[5:4] = 0b01 (spec R86). -/
  | wireStdRemote (hi : BitVec 2) (dlc : BitVec 4)
  /-- type byte with t[5:4] = 0b10 (spec R86). -/
  | wireExtData (hi : BitVec 2) (dlc : BitVec 4)
  /-- type byte with t[5:4] = 0b11 (spec R86). -/
  | wireExtRemote (hi : BitVec 2) (dlc : BitVec 4)
deriving DecidableEq, Repr

/-- The two encodings an instruction can have (spec R86). -/
inductive InstrWord where
  | command (c : Command)
  | typeByte (t : Byte)
deriving DecidableEq, Repr

/-- The CAN frame record of spec R15. Its invariants are `CanFrame.wf`. -/
structure CanFrame where
  id        : BitVec 32
  ext       : Bool
  rtr       : Bool
  dlc       : BitVec 4
  payload   : List Byte
  timestamp : BitVec Config.tsWidth
deriving DecidableEq, Repr

end Sys2Proof
end

