-- ==== Sys2Proof/WellFormed.lean ====
section
/-! DEFINITION. What an instruction must satisfy to have an encoding, and the invariants of a CAN frame. -/

namespace Sys2Proof

/-- The payload operand of ENCODE fills the eight byte fields CMD_PDATA[0..7] (spec R81). Every other
operand has exactly its field's width by its type. -/
def Instr.wf : Instr → Bool
  | .encode _ _ _ _ _ pdata => pdata.length == 8
  | .decode => true
  | .reservedCmd00 => true
  | .reservedCmd11 => true
  | .wireStdData _ _ => true
  | .wireStdRemote _ _ => true
  | .wireExtData _ _ => true
  | .wireExtRemote _ _ => true

/-- The id fits its addressing width: 11 bits standard, 29 bits extended (spec R15). -/
def CanFrame.idFits (f : CanFrame) : Bool :=
  if f.ext then f.id.toNat < 2 ^ 29 else f.id.toNat < 2 ^ 11

/-- The invariants of a CAN frame (spec R15): dlc in [0,8], payload length equal to dlc, id within its
addressing width. -/
def CanFrame.wf (f : CanFrame) : Bool :=
  f.dlc.toNat ≤ 8 && f.payload.length == f.dlc.toNat && f.idFits

end Sys2Proof
end

