-- ==== Sys2Proof/Decode.lean ====
section
/-! DEFINITION. The decoder (command records and type/flags bytes to instructions), the encoder, and the
reading of an opcode-table word. Every CMD_OP value and every type byte is a row of the table, so decoding
is total and answers an instruction for every word; the two reserved rows are instructions of their own,
whose meaning refuses them by name. -/

namespace Sys2Proof

/-! ### The type/flags byte (spec R75, R77) -/

/-- t[7:6], FIXED: 0b11 when emitted, ignored on receive (spec R75). -/
def typeHi (t : Byte) : BitVec 2 := t.extractLsb' 6 2

/-- t[5], is_extended (spec R77). -/
def typeExt (t : Byte) : Bool := t.getLsbD 5

/-- t[4], is_remote_frame (spec R77). -/
def typeRtr (t : Byte) : Bool := t.getLsbD 4

/-- t[3:0], data_length_code (spec R77). -/
def typeDlc (t : Byte) : BitVec 4 := t.extractLsb' 0 4

/-- The type byte with the given four fields (spec R75). -/
def typeByteOf (hi : BitVec 2) (ext rtr : Bool) (dlc : BitVec 4) : Byte :=
  (hi.setWidth 8 <<< 6) ||| ((BitVec.ofBool ext).setWidth 8 <<< 5) ||| ((BitVec.ofBool rtr).setWidth 8 <<< 4)
    ||| dlc.setWidth 8

/-- The wire decoder's dispatch on t[5:4] (spec R86). -/
def decodeTypeByte (t : Byte) : Instr :=
  match typeExt t, typeRtr t with
  | false, false => .wireStdData (typeHi t) (typeDlc t)
  | false, true => .wireStdRemote (typeHi t) (typeDlc t)
  | true, false => .wireExtData (typeHi t) (typeDlc t)
  | true, true => .wireExtRemote (typeHi t) (typeDlc t)

/-! ### The command port (spec R80, R97) -/

/-- CMD_OP of ENCODE (spec R80). -/
def opEncode : BitVec 2 := 0b01#2

/-- CMD_OP of DECODE (spec R80). -/
def opDecode : BitVec 2 := 0b10#2

/-- The command port's dispatch on CMD_OP (spec R97). DECODE ignores the operand fields (spec R82). -/
def decodeCommand (c : Command) : Instr :=
  if c.op = opEncode then .encode c.id c.ext c.rtr c.dlc c.plen c.pdata.toList
  else if c.op = opDecode then .decode
  else if c.op = 0b00#2 then .reservedCmd00
  else .reservedCmd11

/-- The instruction a word of either encoding stands for (spec R86). -/
def decodeWord : InstrWord → Instr
  | .command c => decodeCommand c
  | .typeByte t => decodeTypeByte t

/-! ### The encoder -/

/-- Eight byte fields from a list of bytes; CMD_PDATA (spec R81). -/
def pdataField (l : List Byte) : Vector Byte 8 := Vector.ofFn fun i => l.getD i.val 0#8

/-- A command whose operand fields are all zero: DECODE and the reserved values have no operands
(spec R82, R83). -/
def bareCommand (op : BitVec 2) : Command :=
  { op := op, id := 0#32, ext := false, rtr := false, dlc := 0#4, plen := 0#4, pdata := pdataField [] }

/-- The word of an instruction, from the encoding tables of spec R80, R81 and R75. -/
def encode : Instr → InstrWord
  | .encode id ext rtr dlc plen pdata =>
    .command { op := opEncode, id := id, ext := ext, rtr := rtr, dlc := dlc, plen := plen, pdata := pdataField pdata }
  | .decode => .command (bareCommand opDecode)
  | .reservedCmd00 => .command (bareCommand 0b00#2)
  | .reservedCmd11 => .command (bareCommand 0b11#2)
  | .wireStdData hi dlc => .typeByte (typeByteOf hi false false dlc)
  | .wireStdRemote hi dlc => .typeByte (typeByteOf hi false true dlc)
  | .wireExtData hi dlc => .typeByte (typeByteOf hi true false dlc)
  | .wireExtRemote hi dlc => .typeByte (typeByteOf hi true true dlc)

/-! ### Pseudo-commands (spec R85) -/

/-- SEND f: ENCODE with the fields of frame f (spec R85). The timestamp is no operand (spec R81). -/
def sendFrame (f : CanFrame) : Instr :=
  .encode f.id f.ext f.rtr f.dlc (BitVec.ofNat 4 f.payload.length) (pdataField f.payload).toList

/-- RECV: DECODE (spec R85). -/
def recvFrame : Instr := .decode

/-! ### Words of the opcode table -/

/-- Which encoding an opcode-table word of `nbits` bits is, and its value. A command row has two bits
(CMD_OP) and a wire row eight (t), so a word of at most two bits is a command. Where the command row's word
is widened to a whole byte, 1, 2 and 3 are read as the command with that CMD_OP and every other value as a
type byte (log 12). -/
def tableWord (nbits w : Nat) : Option InstrWord :=
  if 8 < nbits ∨ 2 ^ nbits ≤ w then none
  else if nbits ≤ 2 ∨ (1 ≤ w ∧ w ≤ 3) then some (.command (bareCommand (BitVec.ofNat 2 w)))
  else some (.typeByte (BitVec.ofNat 8 w))

/-- The instruction the decoder reads from an opcode-table word. -/
def decodeTableWord (nbits w : Nat) : Option Instr := (tableWord nbits w).map decodeWord

end Sys2Proof
end

