-- ==== Sys2Proof/Machine/State.lean ====
section
/-! DEFINITION. The machine's state, the reasons a step stops, and the state after reset. -/

namespace Sys2Proof.Machine

/-- The control state FSM (spec R22). Values 6 and 7 of the 3-bit encoding are left out, as spec R22 permits. -/
inductive Fsm where
  | idle
  | dStart
  | dType
  | dId
  | dData
  | dEnd
deriving DecidableEq, Repr

/-- An item of the RX event input (spec R52). -/
inductive RxEvent where
  | byte (b : Byte)
  | timeout
  | fault
deriving DecidableEq, Repr

/-- The registers and outputs a host may read (spec R21, R100, R179). The working registers and FSM are not
among them (spec R25, R21). -/
inductive HostReg where
  | cmdReady
  | encStatus
  | resStatus
  | resId
  | resExt
  | resRtr
  | resDlc
  | resType
  | resData (i : Fin 15)
  | resTs
deriving DecidableEq, Repr

/-- A move of one of the agents of spec R19: the unit's own step, the RX source's delivery, and the host's
command, read and reset. The agenda of such moves is the model's own (log 5). -/
inductive Move where
  | unit
  | deliver (e : RxEvent)
  | issue (c : Command)
  | read (r : HostReg)
  | reset
deriving DecidableEq, Repr

/-- The decoder's working registers W_TYPE, W_ID, W_CNT, W_NB and W_DATA (spec R21, R24). -/
structure Work where
  wType : BitVec 8
  wId   : BitVec 32
  wCnt  : BitVec 4
  wNb   : BitVec 5
  wData : Vector Byte 15
deriving DecidableEq, Repr

/-- The frame result registers (spec R21, R32). An entry of RES_DATA at or beyond RES_DLC has no value
(spec R33). -/
structure FrameRegs where
  resId   : BitVec 32
  resExt  : Bool
  resRtr  : Bool
  resDlc  : BitVec 4
  resType : BitVec 8
  resData : Vector (Option Byte) 15
  resTs   : BitVec Config.tsWidth
deriving DecidableEq, Repr

/-- The codec (spec R21), its parameter DLC_POLICY, and what stands on its interfaces (spec R3, R36).
`work` and `res` are `none` exactly while the spec gives those registers no value (spec R21, R33; log 2).
`tsDraws`, `rxTaken`, `seen` and `agenda` are the model's own (log 3, 5, 17). -/
structure State where
  /-- DLC_POLICY (spec R7); no step changes it. -/
  policy    : DlcPolicy
  /-- FSM (spec R22). -/
  fsm       : Fsm
  /-- The working registers (spec R24). -/
  work      : Option Work
  /-- ENC_STATUS (spec R27). -/
  encStatus : BitVec 16
  /-- RES_STATUS (spec R28). -/
  resStatus : BitVec 16
  /-- The frame result registers (spec R32). -/
  res       : Option FrameRegs
  /-- Commands the host has issued and the unit has not accepted, oldest first (spec R96, R103). -/
  cmds      : List Command
  /-- The RX event input, next event first (spec R52). -/
  rx        : List RxEvent
  /-- The TX byte output, first byte first (spec R55). -/
  tx        : List Byte
  /-- How many RX events the unit has consumed (observed by spec R103). -/
  rxTaken   : Nat
  /-- How many TS samples have been drawn; the index of the next free value. -/
  tsDraws   : Nat
  /-- What the host's reads returned, oldest first (spec R100). -/
  seen      : List (HostReg × Nat)
  /-- The agents' moves still to come; when it is empty the unit moves. -/
  agenda    : List Move
deriving DecidableEq, Repr

/-- The reasons the model faults (spec R37, R102): a read of a register that has no value. -/
inductive Fault where
  /-- Raised by a host read of a frame result register outside the cases of spec R33, as spec R37 says (D14, I10, I11).
  Safe: the step stops. -/
  | noValue (r : HostReg)
  /-- Raised by a decoder step that reads the working registers before any DECODE has been accepted
  (spec R37, I10). Safe: the model stops, and no state a run from reset reaches raises it. -/
  | workNoValue
deriving DecidableEq, Repr

/-- The reasons the model refuses. -/
inductive Refusal where
  /-- Raised by `exec`'s arm of an instruction that has no meaning yet (none is left). Safe: the model stops. -/
  | notModelled (mnemonic : String)
  /-- ReservedCommand(CMD_OP), raised by a command with CMD_OP 0b00 or 0b11 (spec R83, R97, R102). Safe. -/
  | reservedCommand (op : BitVec 2)
  /-- Raised by the meaning of a wire type byte in a state other than D_TYPE, where the decoder dispatches on
  no type byte (spec R86, R139); `step` never raises it. Safe: the model stops (log 11). -/
  | notDispatched
deriving DecidableEq, Repr

/-- The three outcomes of a step (spec R102). -/
abbrev Result := Host.Outcome State Fault Refusal

/-- The machine right after reset (spec R21, R195), with nothing on its interfaces (log 21). -/
def State.reset : State :=
  { policy := Config.dlcPolicy
    fsm := .idle
    work := none
    encStatus := 0x0000#16
    resStatus := 0x0000#16
    res := none
    cmds := []
    rx := []
    tx := []
    rxTaken := 0
    tsDraws := 0
    seen := []
    agenda := [] }

end Sys2Proof.Machine
end

