-- ==== Sys2Proof/Machine/Flags.lean ====
section
/-! DEFINITION. The two status words: their layouts, their fields, and the flag computations behind them. -/

namespace Sys2Proof.Machine

/-! ### Range checks (spec R14, R31, R111) -/

/-- STD_ID_LIMIT (spec R14). -/
abbrev stdIdLimit : Nat := 0x800

/-- EXT_ID_LIMIT (spec R14). -/
abbrev extIdLimit : Nat := 0x20000000

/-- DLC_MAX (spec R14). -/
abbrev dlcMax : Nat := 8

/-- The id does not fit its addressing width (spec R31). -/
def tooWide (id : BitVec 32) (ext : Bool) : Bool :=
  if ext then extIdLimit ≤ id.toNat else stdIdLimit ≤ id.toNat

/-- The three rejection flags of ENCODE (spec R111, R172). -/
structure EncFlags where
  errDlc : Bool
  errLen : Bool
  errId  : Bool
deriving DecidableEq, Repr

/-- The input check of ENCODE (spec R111): every violated constraint at once. -/
def encCheck (id : BitVec 32) (ext : Bool) (dlc plen : BitVec 4) : EncFlags :=
  { errDlc := dlcMax < dlc.toNat
    errLen := plen != dlc
    errId := tooWide id ext }

/-- Some constraint is violated (spec R110). -/
def EncFlags.any (f : EncFlags) : Bool := f.errDlc || f.errLen || f.errId

/-! ### ENC_STATUS (spec R27) -/

/-- RESULT = OK (spec R27). -/
def resultOk : BitVec 2 := 0b01#2

/-- RESULT = REJECT (spec R27). -/
def resultReject : BitVec 2 := 0b10#2

/-- The layout of ENC_STATUS: each field at its place, the reserved bits 0 (spec R27). -/
def encStatusWord (result : BitVec 2) (f : EncFlags) (nbytes : BitVec 4) : BitVec 16 :=
  result.setWidth 16 ||| ((BitVec.ofBool f.errDlc).setWidth 16 <<< 2) ||| ((BitVec.ofBool f.errLen).setWidth 16 <<< 3)
    ||| ((BitVec.ofBool f.errId).setWidth 16 <<< 4) ||| (nbytes.setWidth 16 <<< 8)

/-- ENC_STATUS.RESULT (spec R27). -/
def encResult (w : BitVec 16) : BitVec 2 := w.extractLsb' 0 2

/-- ENC_STATUS.ERR_DLC, ERR_LEN and ERR_ID (spec R27). -/
def encFlagsOf (w : BitVec 16) : EncFlags :=
  { errDlc := w.getLsbD 2, errLen := w.getLsbD 3, errId := w.getLsbD 4 }

/-- ENC_STATUS.NBYTES (spec R27). -/
def encNbytes (w : BitVec 16) : BitVec 4 := w.extractLsb' 8 4

/-- The reserved bits [7:5] and [15:12] of ENC_STATUS (spec R27). -/
def encReserved (w : BitVec 16) : BitVec 16 := w &&& 0xF0E0#16

/-! ### RES_STATUS (spec R28, R29, R30) -/

/-- The outcome codes of RES_STATUS.CODE (spec R29). -/
inductive ResCode where
  | none
  | frame
  | timeout
  | badStart
  | badEnd
  | transport
  | dlcRange
deriving DecidableEq, Repr

/-- The encodings of spec R29. -/
def codeBits : ResCode → BitVec 4
  | .none => 0#4
  | .frame => 1#4
  | .timeout => 2#4
  | .badStart => 3#4
  | .badEnd => 4#4
  | .transport => 5#4
  | .dlcRange => 6#4

/-- The encodings of FSM (spec R22). -/
def fsmBits : Fsm → BitVec 3
  | .idle => 0#3
  | .dStart => 1#3
  | .dType => 2#3
  | .dId => 3#3
  | .dData => 4#3
  | .dEnd => 5#3

/-- The stage of a decoder state: FSM - 1 (spec R30, R137). -/
def stageOf (f : Fsm) : BitVec 3 := fsmBits f - 1#3

/-- The layout of RES_STATUS: each field at its place, bit 15 is 0 (spec R28). -/
def resStatusWord (code : ResCode) (stage : BitVec 3) (valid : Bool) (nb : BitVec 5) (dlcGt8 idWide : Bool) :
    BitVec 16 :=
  (codeBits code).setWidth 16 ||| (stage.setWidth 16 <<< 4) ||| ((BitVec.ofBool valid).setWidth 16 <<< 7)
    ||| (nb.setWidth 16 <<< 8) ||| ((BitVec.ofBool dlcGt8).setWidth 16 <<< 13)
    ||| ((BitVec.ofBool idWide).setWidth 16 <<< 14)

/-- RES_STATUS.CODE (spec R28). -/
def resCode (w : BitVec 16) : BitVec 4 := w.extractLsb' 0 4

/-- RES_STATUS.STAGE (spec R28). -/
def resStage (w : BitVec 16) : BitVec 3 := w.extractLsb' 4 3

/-- RES_STATUS.VALID (spec R28). -/
def resValid (w : BitVec 16) : Bool := w.getLsbD 7

/-- RES_STATUS.NBYTES (spec R28). -/
def resNbytes (w : BitVec 16) : BitVec 5 := w.extractLsb' 8 5

/-- RES_STATUS.DLC_GT8 (spec R28). -/
def resDlcGt8 (w : BitVec 16) : Bool := w.getLsbD 13

/-- RES_STATUS.ID_WIDE (spec R28). -/
def resIdWide (w : BitVec 16) : Bool := w.getLsbD 14

/-- The reserved bit 15 of RES_STATUS (spec R28). -/
def resReserved (w : BitVec 16) : Bool := w.getLsbD 15

end Sys2Proof.Machine
end

