-- ==== Sys2Proof/Machine/Operands.lean ====
section
/-! DEFINITION. The wire frame: its fields, its byte order and its assembly, and the views of the working
registers. -/

namespace Sys2Proof.Machine

/-- START (spec R14). -/
abbrev startByte : Byte := 0xAA#8

/-- END (spec R14). -/
abbrev endByte : Byte := 0x55#8

/-- TYPE_FIXED (spec R14). -/
def typeFixed : Byte := 0xC0#8

/-- w, the width of the id field in bytes (spec R70, R77). -/
def idWidth (ext : Bool) : Nat := if ext then 4 else 2

/-- Byte k of the id field, id[8k+7:8k] (spec R56). -/
def idByte (id : BitVec 32) (k : Nat) : Byte := id.extractLsb' (8 * k) 8

/-- The id field, little-endian (spec R56, R112). -/
def idBytes (id : BitVec 32) (ext : Bool) : List Byte :=
  (List.range (idWidth ext)).map (idByte id)

/-- The type byte the encoder assembles (spec R76). -/
def emitType (ext rtr : Bool) (dlc : BitVec 4) : Byte :=
  typeFixed ||| ((BitVec.ofBool ext).setWidth 8 <<< 5) ||| ((BitVec.ofBool rtr).setWidth 8 <<< 4) ||| dlc.setWidth 8

/-- The wire frame of a command that passes the check (spec R112). -/
def wireFrame (id : BitVec 32) (ext rtr : Bool) (dlc : BitVec 4) (pdata : List Byte) : List Byte :=
  [startByte, emitType ext rtr dlc] ++ idBytes id ext ++ pdata.take dlc.toNat ++ [endByte]

/-- The length of a wire frame, 3 + w + dlc (spec R72). -/
def frameLength (ext : Bool) (dlc : BitVec 4) : Nat := 3 + idWidth ext + dlc.toNat

/-- One received id byte put in its place: byte k of the id (spec R141). -/
def placeIdByte (id : BitVec 32) (b : Byte) (k : Nat) : BitVec 32 := id ||| (b.setWidth 32 <<< (8 * k))

/-- W_EXT (spec R24). -/
def Work.wExt (w : Work) : Bool := typeExt w.wType

/-- W_RTR (spec R24). -/
def Work.wRtr (w : Work) : Bool := typeRtr w.wType

/-- W_DLC (spec R24). -/
def Work.wDlc (w : Work) : BitVec 4 := typeDlc w.wType

/-- W_W (spec R24). -/
def Work.wW (w : Work) : Nat := idWidth w.wExt

/-- The working registers as DECODE acceptance clears them (spec R136). -/
def clearedWork : Work :=
  { wType := 0#8, wId := 0#32, wCnt := 0#4, wNb := 0#5, wData := Vector.replicate 15 0#8 }

/-- W_DATA with byte i written (spec R142); i is at most 14 in every state a run reaches (log 15). -/
def putData (d : Vector Byte 15) (i : Nat) (b : Byte) : Vector Byte 15 :=
  Vector.ofFn fun j => if j.val = i then b else d[j.val]

/-- RES_DATA on acceptance: entry i has the value W_DATA[i] for i < dlc and none above (spec R149, R33). -/
def captureData (d : Vector Byte 15) (dlc : BitVec 4) : Vector (Option Byte) 15 :=
  Vector.ofFn fun i => if i.val < dlc.toNat then some d[i.val] else none

end Sys2Proof.Machine
end

