-- ==== Sys2Proof/Machine/Ops.lean ====
section
/-! DEFINITION. The shared operations: the three stream primitives, the outcomes of the two commands (the
codec has no traps: these stand where another machine takes an exception), reset, and the host's read. -/

namespace Sys2Proof.Machine

/-- CMD_READY (spec R23). -/
def State.cmdReady (s : State) : Bool := s.fsm == .idle

/-! ### Stream primitives (spec R12) -/

/-- The state after `RxRead()` has removed the first event, `es` being what is left (spec R52, R59). -/
def State.rxTake (s : State) (es : List RxEvent) : State :=
  { s with rx := es, rxTaken := s.rxTaken + 1 }

/-- `TxAppend(bytes)` (spec R55). -/
def State.txAppend (s : State) (bytes : List Byte) : State := { s with tx := s.tx ++ bytes }

/-- The value `TsSample()` returns: a free draw (spec R34; log 3). -/
def State.tsNow (s : State) : BitVec Config.tsWidth := Config.tsSample s.tsDraws

/-! ### Outcomes of ENCODE (spec R114, R115) -/

/-- The OK outcome: the frame is appended and ENC_STATUS written, in one step (spec R114). -/
def State.encAccept (s : State) (bytes : List Byte) : State :=
  { s.txAppend bytes with
    encStatus := encStatusWord resultOk { errDlc := false, errLen := false, errId := false } (BitVec.ofNat 4 bytes.length) }

/-- `raise EncReject(flags)`: ENC_STATUS is written and nothing else changes (spec R115). -/
def State.encReject (s : State) (f : EncFlags) : State :=
  { s with encStatus := encStatusWord resultReject f 0#4 }

/-! ### Outcomes of DECODE (spec R148 to R151) -/

/-- `raise NoFrame(code, stage) with nb`: RES_STATUS is written, the frame result registers lose their
value, and the unit returns to IDLE (spec R151). -/
def State.noFrame (s : State) (code : ResCode) (stage : BitVec 3) (nb : BitVec 5) : State :=
  { s with fsm := .idle, res := none, resStatus := resStatusWord code stage false nb false false }

/-- The frame result registers `accept()` writes (spec R149). -/
def capture (w : Work) (ts : BitVec Config.tsWidth) : FrameRegs :=
  { resId := w.wId
    resExt := w.wExt
    resRtr := w.wRtr
    resDlc := w.wDlc
    resType := w.wType
    resData := captureData w.wData w.wDlc
    resTs := ts }

/-- `accept()`, the FRAME outcome, with `nb = W_NB + 1` (spec R148, R149, R150). -/
def State.acceptFrame (s : State) (w : Work) : State :=
  { s with
    fsm := .idle
    res := some (capture w s.tsNow)
    tsDraws := s.tsDraws + 1
    resStatus := resStatusWord .frame 4#3 true (w.wNb + 1#5) (dlcMax < w.wDlc.toNat) (tooWide w.wId w.wExt) }

/-! ### The working registers -/

/-- Reading the working registers: a fault while they have no value, which spec R37 and I10 say of a model. -/
def withWork (s : State) (k : Work → Result) : Result :=
  match s.work with
  | some w => k w
  | none => .fault .workNoValue

/-! ### Reset (spec R195 to R199) -/

/-- A reset step: the codec's registers take their reset values; the interfaces, and DLC_POLICY, stay as they
are (spec R195, R196, R198). -/
def State.resetUnit (s : State) : State :=
  { s with fsm := .idle, work := none, encStatus := 0x0000#16, resStatus := 0x0000#16, res := none }

/-! ### The host's read (spec R33, R100) -/

/-- The value a host read returns, unsigned; `none` where the register has no value (spec R33). -/
def State.hostValue (s : State) : HostReg → Option Nat
  | .cmdReady => some s.cmdReady.toNat
  | .encStatus => some s.encStatus.toNat
  | .resStatus => some s.resStatus.toNat
  | .resId => s.res.map fun r => r.resId.toNat
  | .resExt => s.res.map fun r => r.resExt.toNat
  | .resRtr => s.res.map fun r => r.resRtr.toNat
  | .resDlc => s.res.map fun r => r.resDlc.toNat
  | .resType => s.res.map fun r => r.resType.toNat
  | .resData i => s.res.bind fun r => r.resData[i.val].map BitVec.toNat
  | .resTs => s.res.map fun r => r.resTs.toNat

/-- A host read: no side effect on the codec (spec R100); a fault where the register has no value (spec R37, R102, R202). -/
def hostRead (r : HostReg) (s : State) : Result :=
  match s.hostValue r with
  | some v => .next { s with seen := s.seen ++ [(r, v)] }
  | none => .fault (.noValue r)

/-- The CAN frame the result registers hold: its payload is RES_DATA[0..RES_DLC-1] (spec R149). -/
def FrameRegs.frame (r : FrameRegs) : CanFrame :=
  { id := r.resId
    ext := r.resExt
    rtr := r.resRtr
    dlc := r.resDlc
    payload := r.resData.toList.filterMap id
    timestamp := r.resTs }

end Sys2Proof.Machine
end

