-- ==== Sys2Proof/Machine/Encode.lean ====
section
/-! DEFINITION. ENCODE (spec R110 to R118). -/

namespace Sys2Proof.Machine

/-- ENCODE (spec R110): the check, then the frame or the rejection, in the accepting step. While CMD_READY is
0 the command is not accepted (spec R96; log 10). -/
def execEncode (id : BitVec 32) (ext rtr : Bool) (dlc plen : BitVec 4) (pdata : List Byte) (s : State) : Result :=
  if s.cmdReady then
    if (encCheck id ext dlc plen).any then .next (s.encReject (encCheck id ext dlc plen))
    else .next (s.encAccept (wireFrame id ext rtr dlc pdata))
  else .next s

end Sys2Proof.Machine
end

