-- ==== Sys2Proof/Machine/Receive.lean ====
section
/-! DEFINITION. DECODE's acceptance and the decoder's byte rules in every state but D_TYPE, whose rule is the
meaning of the wire type bytes (Machine/Wire.lean). The byte has been taken from the RX input already. -/

namespace Sys2Proof.Machine

/-- DECODE's acceptance step (spec R136). While CMD_READY is 0 the command is not accepted (spec R96; log 10). -/
def execDecode (s : State) : Result :=
  if s.cmdReady then .next { s with fsm := .dStart, work := some clearedWork }
  else .next s

/-- D_START on Byte(b) (spec R138). -/
def onStartByte (b : Byte) (w : Work) (s : State) : State :=
  if b = startByte then { s with fsm := .dType, work := some { w with wNb := w.wNb + 1#5 } }
  else s.noFrame .badStart (stageOf .dStart) (w.wNb + 1#5)

/-- D_ID on Byte(b) (spec R141). -/
def onIdByte (b : Byte) (w : Work) (s : State) : State :=
  if w.wCnt.toNat + 1 = w.wW then
    { s with
      fsm := if w.wDlc = 0#4 then .dEnd else .dData
      work := some { w with wId := placeIdByte w.wId b w.wCnt.toNat, wNb := w.wNb + 1#5, wCnt := 0#4 } }
  else
    { s with
      work := some { w with wId := placeIdByte w.wId b w.wCnt.toNat, wNb := w.wNb + 1#5, wCnt := w.wCnt + 1#4 } }

/-- D_DATA on Byte(b) (spec R142). -/
def onDataByte (b : Byte) (w : Work) (s : State) : State :=
  if w.wCnt.toNat + 1 = w.wDlc.toNat then
    { s with
      fsm := .dEnd
      work := some { w with wData := putData w.wData w.wCnt.toNat b, wNb := w.wNb + 1#5, wCnt := 0#4 } }
  else
    { s with
      work := some { w with wData := putData w.wData w.wCnt.toNat b, wNb := w.wNb + 1#5, wCnt := w.wCnt + 1#4 } }

/-- D_END on Byte(b) (spec R143). -/
def onEndByte (b : Byte) (w : Work) (s : State) : State :=
  if b = endByte then s.acceptFrame w
  else s.noFrame .badEnd (stageOf .dEnd) (w.wNb + 1#5)

end Sys2Proof.Machine
end

