-- ==== Sys2Proof/Machine/Reserved.lean ====
section
/-! DEFINITION. The reserved CMD_OP values: refused by name, no state changes (spec R83, R97, R102; log 1). -/

namespace Sys2Proof.Machine

/-- `refuse ReservedCommand(CMD_OP)` (spec R97). The outcome holds no state: none changes (spec R83). -/
def refuseReserved (op : BitVec 2) (_ : State) : Result := .refused (.reservedCommand op)

/-- CMD_OP = 0b00 (spec R83). -/
def execReservedCmd00 (s : State) : Result := refuseReserved 0b00#2 s

/-- CMD_OP = 0b11 (spec R83). -/
def execReservedCmd11 (s : State) : Result := refuseReserved 0b11#2 s

end Sys2Proof.Machine
end

