-- ==== Sys2Proof/Machine/Wire.lean ====
section
/-! DEFINITION. The four wire frame types: the type/flags byte in D_TYPE (spec R139, R140). The byte has been
taken from the RX input already. -/

namespace Sys2Proof.Machine

/-- D_TYPE on Byte(t) (spec R139, R140). Under REJECT a dlc above 8 ends the attempt. -/
def onTypeByte (t : Byte) (w : Work) (s : State) : State :=
  if s.policy = .reject ∧ dlcMax < (typeDlc t).toNat then
    { s.noFrame .dlcRange (stageOf .dType) (w.wNb + 1#5) with
      work := some { w with wType := t, wNb := w.wNb + 1#5 } }
  else
    { s with fsm := .dId, work := some { w with wType := t, wNb := w.wNb + 1#5, wCnt := 0#4 } }

/-- A type byte is dispatched on in D_TYPE only (spec R86, R139; log 11). -/
def typeDispatch (t : Byte) (s : State) : Result :=
  if s.fsm = .dType then withWork s fun w => .next (onTypeByte t w s)
  else .refused .notDispatched

/-- WIRE_STD_DATA: ext = 0, rtr = 0 (spec R86, R139). -/
def execWireStdData (hi : BitVec 2) (dlc : BitVec 4) (s : State) : Result :=
  typeDispatch (typeByteOf hi false false dlc) s

/-- WIRE_STD_REMOTE: ext = 0, rtr = 1 (spec R86, R139). -/
def execWireStdRemote (hi : BitVec 2) (dlc : BitVec 4) (s : State) : Result :=
  typeDispatch (typeByteOf hi false true dlc) s

/-- WIRE_EXT_DATA: ext = 1, rtr = 0 (spec R86, R139). -/
def execWireExtData (hi : BitVec 2) (dlc : BitVec 4) (s : State) : Result :=
  typeDispatch (typeByteOf hi true false dlc) s

/-- WIRE_EXT_REMOTE: ext = 1, rtr = 1 (spec R86, R139). -/
def execWireExtRemote (hi : BitVec 2) (dlc : BitVec 4) (s : State) : Result :=
  typeDispatch (typeByteOf hi true true dlc) s

end Sys2Proof.Machine
end

