-- ==== Sys2Proof/Machine/Dispatch.lean ====
section
/-! DEFINITION. One arm per instruction (spec R86, R97). -/

namespace Sys2Proof.Machine

def exec (i : Instr) (s : State) : Host.Outcome State Fault Refusal :=
  match i with
  | .encode id ext rtr dlc plen pdata => Sys2Proof.Machine.execEncode id ext rtr dlc plen pdata s
  | .decode => Sys2Proof.Machine.execDecode s
  | .reservedCmd00 => Sys2Proof.Machine.execReservedCmd00 s
  | .reservedCmd11 => Sys2Proof.Machine.execReservedCmd11 s
  | .wireStdData hi dlc => Sys2Proof.Machine.execWireStdData hi dlc s
  | .wireStdRemote hi dlc => Sys2Proof.Machine.execWireStdRemote hi dlc s
  | .wireExtData hi dlc => Sys2Proof.Machine.execWireExtData hi dlc s
  | .wireExtRemote hi dlc => Sys2Proof.Machine.execWireExtRemote hi dlc s

end Sys2Proof.Machine
end

