-- ==== Sys2Proof/Machine/Unit.lean ====
section
/-! DEFINITION. The unit's step (spec R96 to R99, R137), the other agents' moves (spec R19, R104), and where
a word is placed so that the next step runs it. -/

namespace Sys2Proof.Machine

/-- A decoder step on `Byte(b)`, already taken from the RX input: the rule of the current state (spec R137).
In IDLE the unit takes no byte, so `decoderStep` never asks. -/
def onByte (b : Byte) (s : State) : Result :=
  match s.fsm with
  | .idle => .next s
  | .dStart => withWork s fun w => .next (onStartByte b w s)
  | .dType => exec (decodeTypeByte b) s
  | .dId => withWork s fun w => .next (onIdByte b w s)
  | .dData => withWork s fun w => .next (onDataByte b w s)
  | .dEnd => withWork s fun w => .next (onEndByte b w s)

/-- A decoder step on an event already taken from the RX input (spec R137): Timeout and Fault end the attempt
in any state (spec R175). -/
def onEvent (ev : RxEvent) (s : State) : Result :=
  match ev with
  | .byte b => onByte b s
  | .timeout => withWork s fun w => .next (s.noFrame .timeout (stageOf s.fsm) w.wNb)
  | .fault => withWork s fun w => .next (s.noFrame .transport (stageOf s.fsm) w.wNb)

/-- A step in a D_* state: it consumes exactly one RX event, or waits with all state held while there is
none (spec R52, R99, R186). -/
def decoderStep (s : State) : Result :=
  match s.rx with
  | [] => .next s
  | ev :: es => onEvent ev (s.rxTake es)

/-- A step in IDLE: the oldest issued command is accepted and dispatched; with none, nothing happens
(spec R96, R97). -/
def commandStep (s : State) : Result :=
  match s.cmds with
  | [] => .next s
  | c :: cs => exec (decodeCommand c) { s with cmds := cs }

/-- The unit's step. -/
def unitStep (s : State) : Result :=
  if s.cmdReady then commandStep s else decoderStep s

/-- One agent's move (spec R19, R104). A reset step takes no command and no event (spec R176, R195). -/
def move (m : Move) (s : State) : Result :=
  match m with
  | .unit => unitStep s
  | .deliver e => .next { s with rx := s.rx ++ [e] }
  | .issue c => .next { s with cmds := s.cmds ++ [c] }
  | .read r => hostRead r s
  | .reset => .next s.resetUnit

/-- The next move: the first of the agenda, or the unit's when the agenda is empty (log 5). -/
def nextMove (s : State) : Result :=
  match s.agenda with
  | [] => unitStep s
  | m :: ms => move m { s with agenda := ms }

/-- `s` with a word placed where the next step takes it: a command is the oldest issued one and the unit is
IDLE; a type byte is the next RX event and the unit is in D_TYPE, one byte into an attempt (log 13). -/
def placeWord (s : State) : InstrWord → State
  | .command c => { s with agenda := [], fsm := .idle, cmds := c :: s.cmds }
  | .typeByte t =>
    { s with agenda := [], fsm := .dType, work := some { clearedWork with wNb := 1#5 }, rx := .byte t :: s.rx }

end Sys2Proof.Machine
end

