-- ==== Sys2Proof/Machine/Step.lean ====
section
/-! DEFINITION. One step of the machine, and the placing of an opcode-table word for the next step. -/

namespace Sys2Proof.Machine

/-- One step (spec R102): the next agent's move. -/
def step (s : State) : Host.Outcome State Fault Refusal := nextMove s

/-- `s` with an opcode-table word placed so that the next step runs it (log 12, 13). -/
def State.withFetchWord (s : State) (nbits w : Nat) : State :=
  match tableWord nbits w with
  | some word => placeWord s word
  | none => s

end Sys2Proof.Machine
end

