-- ==== Sys2Proof/Machine/Attempt.lean ====
section
/-! DEFINITION. The whole receive attempt as one function of its events (spec R152), against which the step
rules can be checked. The step does not call it. -/

namespace Sys2Proof.Machine

/-- How an attempt stands after the events it has been given (spec R152). `wait` is spec R152's WAIT: the attempt
holds until the RX source delivers. -/
inductive AttemptResult where
  | wait
  | noFrame (code : ResCode) (stage : BitVec 3) (nb : Nat)
  | frame (id : BitVec 32) (ext rtr : Bool) (dlc : BitVec 4) (data : List Byte) (type : Byte) (nb : Nat)
deriving DecidableEq, Repr

/-- Where an attempt stands in its events: those left, `i` consumed, `nb` of them bytes (spec R152). -/
structure Cursor where
  evs : List RxEvent
  i   : Nat
  nb  : Nat
deriving DecidableEq, Repr

/-- The next event at a stage: a byte goes on to `k`; a Timeout or a Fault ends the attempt (spec R152,
`next` and `nofr`). -/
def nextByte (stage : BitVec 3) (c : Cursor) (k : Byte → Cursor → AttemptResult × Nat) : AttemptResult × Nat :=
  match c.evs with
  | [] => (.wait, c.i)
  | .timeout :: _ => (.noFrame .timeout stage c.nb, c.i + 1)
  | .fault :: _ => (.noFrame .transport stage c.nb, c.i + 1)
  | .byte b :: es => k b { evs := es, i := c.i + 1, nb := c.nb + 1 }

/-- The next `n` bytes at a stage, one read each (spec R54, R152). -/
def nextBytes (stage : BitVec 3) : Nat → Cursor → (List Byte → Cursor → AttemptResult × Nat) → AttemptResult × Nat
  | 0, c, k => k [] c
  | n + 1, c, k => nextByte stage c fun b c' => nextBytes stage n c' fun bs c'' => k (b :: bs) c''

/-- The id assembled from its bytes, little-endian, from byte `k` on (spec R152, R56). -/
def assembleFrom (id : BitVec 32) (k : Nat) : List Byte → BitVec 32
  | [] => id
  | b :: bs => assembleFrom (placeIdByte id b k) (k + 1) bs

/-- `decode_attempt` (spec R152): the outcome and the number of events consumed. -/
def decodeAttempt (policy : DlcPolicy) (evs : List RxEvent) : AttemptResult × Nat :=
  nextByte 0#3 { evs := evs, i := 0, nb := 0 } fun b c =>
    if b ≠ startByte then (.noFrame .badStart 0#3 c.nb, c.i)
    else nextByte 1#3 c fun t c =>
      if policy = .reject ∧ dlcMax < (typeDlc t).toNat then (.noFrame .dlcRange 1#3 c.nb, c.i)
      else nextBytes 2#3 (idWidth (typeExt t)) c fun idb c =>
        nextBytes 3#3 (typeDlc t).toNat c fun data c =>
          nextByte 4#3 c fun e c =>
            if e ≠ endByte then (.noFrame .badEnd 4#3 c.nb, c.i)
            else (.frame (assembleFrom 0#32 0 idb) (typeExt t) (typeRtr t) (typeDlc t) data t c.nb, c.i)

end Sys2Proof.Machine
end

