-- ==== Sys2Proof/Safety.lean ====
section
/-! DEFINITION. The codec's invariant, the end of a run, and what is observed there. -/

namespace Sys2Proof.Machine

/-! ### The invariant -/

/-- ENC_STATUS is a word spec R27 allows: reserved bits 0; RESULT never 0b11; flags only with REJECT, and then
at least one; NBYTES 5 to 15 on OK and 0 otherwise. -/
def encStatusOk (w : BitVec 16) : Bool :=
  encReserved w == 0#16 &&
  (if encResult w == resultOk then !(encFlagsOf w).any && (5 ≤ (encNbytes w).toNat)
   else if encResult w == resultReject then (encFlagsOf w).any && encNbytes w == 0#4
   else encResult w == 0b00#2 && !(encFlagsOf w).any && encNbytes w == 0#4)

/-- The byte counts spec R147 allows a no-frame outcome with the given code and stage, whatever the frame's
widths are. DLC_RANGE occurs under REJECT only (spec R174). -/
def noFrameCountOk (policy : DlcPolicy) (code : BitVec 4) (stage : BitVec 3) (nb : Nat) : Bool :=
  if code == codeBits .none then stage == 0#3 && nb == 0
  else if code == codeBits .timeout || code == codeBits .transport then
    if stage == 0#3 then nb == 0
    else if stage == 1#3 then nb == 1
    else if stage == 2#3 then 2 ≤ nb && nb < 6
    else if stage == 3#3 then 4 ≤ nb && nb < 21
    else stage == 4#3 && (4 ≤ nb && nb < 22)
  else if code == codeBits .badStart then stage == 0#3 && nb == 1
  else if code == codeBits .badEnd then stage == 4#3 && (5 ≤ nb && nb < 23)
  else code == codeBits .dlcRange && stage == 1#3 && nb == 2 && policy == .reject

/-- Under REJECT no frame with a dlc above 8 goes on (spec R140). -/
def policyAllows (policy : DlcPolicy) (dlc : BitVec 4) : Bool := policy == .pass || (dlc.toNat ≤ 8)

/-- The result registers and RES_STATUS agree (spec R28 to R33, R149 to R151): without a frame VALID, DLC_GT8,
ID_WIDE and bit 15 are 0 and the count is one of spec R147; with a frame RES_STATUS is the FRAME word of that frame,
the fields are those of RES_TYPE, and RES_DATA has a value exactly below RES_DLC. -/
def resultsOk (policy : DlcPolicy) (w : BitVec 16) : Option FrameRegs → Bool
  | none =>
    !resReserved w && !resValid w && !resDlcGt8 w && !resIdWide w &&
    noFrameCountOk policy (resCode w) (resStage w) (resNbytes w).toNat
  | some r =>
    w == resStatusWord .frame 4#3 true (BitVec.ofNat 5 (frameLength r.resExt r.resDlc)) (dlcMax < r.resDlc.toNat)
      (tooWide r.resId r.resExt) &&
    r.resExt == typeExt r.resType && r.resRtr == typeRtr r.resType && r.resDlc == typeDlc r.resType &&
    (r.resId.toNat < 2 ^ (8 * idWidth r.resExt)) && policyAllows policy r.resDlc &&
    (List.finRange 15).all fun i => r.resData[i.val].isSome == decide (i.val < r.resDlc.toNat)

/-- The working registers stand where the decoder state says (spec R24, R136 to R143): the byte count, the index in
the field, and the id no wider than the bytes received. In IDLE nothing is claimed of them (spec R25). -/
def workOk (policy : DlcPolicy) : Fsm → Option Work → Bool
  | .idle, _ => true
  | _, none => false
  | .dStart, some w => w == clearedWork
  | .dType, some w => w == { clearedWork with wNb := 1#5 }
  | .dId, some w =>
    (w.wCnt.toNat < w.wW) && w.wNb.toNat == 2 + w.wCnt.toNat && (w.wId.toNat < 2 ^ (8 * w.wCnt.toNat)) &&
    policyAllows policy w.wDlc
  | .dData, some w =>
    (w.wCnt.toNat < w.wDlc.toNat) && w.wNb.toNat == 2 + w.wW + w.wCnt.toNat && (w.wId.toNat < 2 ^ (8 * w.wW)) &&
    policyAllows policy w.wDlc
  | .dEnd, some w =>
    w.wCnt == 0#4 && w.wNb.toNat == 2 + w.wW + w.wDlc.toNat && (w.wId.toNat < 2 ^ (8 * w.wW)) &&
    policyAllows policy w.wDlc

/-- The codec's invariant. It says nothing of the interfaces: any commands, events and moves may stand there. -/
def State.inv (s : State) : Bool :=
  encStatusOk s.encStatus && resultsOk s.policy s.resStatus s.res && workOk s.policy s.fsm s.work

/-! ### Terms the statements use -/

/-- `s` after a no-frame outcome, RES_STATUS written as the number spec R28 lays out: CODE, STAGE in bits [6:4],
NBYTES in bits [12:8] and every other bit 0 (spec R151). -/
def afterNoFrame (s : State) (code stage nb : Nat) : State :=
  { s with fsm := .idle, res := none, resStatus := BitVec.ofNat 16 (code + 16 * stage + 256 * nb) }

/-- `s` with its first RX event consumed, `es` being what is left (spec R52). -/
def afterEvent (s : State) (es : List RxEvent) : State := { s with rx := es, rxTaken := s.rxTaken + 1 }

/-- The event is a byte (spec R52). -/
def RxEvent.isByte : RxEvent → Bool
  | .byte _ => true
  | .timeout => false
  | .fault => false

/-- The frame registers but for the timestamp, which is a free draw (spec R34). -/
def FrameRegs.untimed (r : FrameRegs) : BitVec 32 × Bool × Bool × BitVec 4 × Byte × Vector (Option Byte) 15 :=
  (r.resId, r.resExt, r.resRtr, r.resDlc, r.resType, r.resData)

/-- An attempt's result but for RTR and the type byte that carries it (spec R146). -/
def AttemptResult.sansRtr : AttemptResult → AttemptResult
  | .wait => .wait
  | .noFrame code stage nb => .noFrame code stage nb
  | .frame id ext _ dlc data _ nb => .frame id ext false dlc data 0#8 nb

/-- The state after an attempt is the one `decodeAttempt`'s result describes, `s` being the state before
(spec R149, R151, R152). A waiting attempt has written no result register (spec R100). -/
def attemptShows (s t : State) : AttemptResult → Prop
  | .wait => t.fsm ≠ .idle ∧ t.rx = [] ∧ t.res = s.res ∧ t.resStatus = s.resStatus ∧ t.tsDraws = s.tsDraws
  | .noFrame code stage nb =>
    t.fsm = .idle ∧ t.res = none ∧ t.tsDraws = s.tsDraws ∧
    t.resStatus = BitVec.ofNat 16 ((codeBits code).toNat + 16 * stage.toNat + 256 * nb)
  | .frame id ext rtr dlc data type nb =>
    t.fsm = .idle ∧ t.tsDraws = s.tsDraws + 1 ∧
    t.resStatus = BitVec.ofNat 16 (1 + 16 * 4 + 128 + 256 * nb + (if 8 < dlc.toNat then 8192 else 0) +
      (if (if ext then 0x20000000 else 0x800) ≤ id.toNat then 16384 else 0)) ∧
    ∃ r, t.res = some r ∧ r.resType = type ∧
      r.frame = { id := id, ext := ext, rtr := rtr, dlc := dlc, payload := data, timestamp := Config.tsSample s.tsDraws }

/-! ### Runs, their end, and the observation -/

/-- Where a run stands after some steps: the last state, and the marks of spec R102. -/
structure RunEnd where
  last        : State
  faultMark   : Option Fault
  refusalMark : Option Refusal
deriving DecidableEq, Repr

/-- What a refused command leaves: the command is off the port, and no codec state changes (spec R83, R104; log 1).
In a decoder state nothing changes. -/
def State.dropRefused (s : State) : State := if s.cmdReady then { s with cmds := s.cmds.tail } else s

/-- The state a run goes on from after a step that stopped: the stopped move is over, and no register of the codec has
changed (spec R83, R100; log 1). -/
def State.dropStopped (s : State) : State :=
  match s.agenda with
  | [] => s.dropRefused
  | .unit :: ms => { s.dropRefused with agenda := ms }
  | _ :: ms => { s with agenda := ms }

/-- One more step of a run. A fault or a refusal is recorded in its mark, the first of each staying (spec R102). -/
def RunEnd.advance (r : RunEnd) : RunEnd :=
  match step r.last with
  | .next t => { r with last := t }
  | .fault f => { r with last := r.last.dropStopped, faultMark := r.faultMark.or (some f) }
  | .refused f => { r with last := r.last.dropStopped, refusalMark := r.refusalMark.or (some f) }

/-- `k` steps from `s`, with no mark at the start. -/
def runFrom : Nat → State → RunEnd
  | 0, s => { last := s, faultMark := none, refusalMark := none }
  | k + 1, s => (runFrom k s).advance

/-- A run is safe when it has recorded no fault and no refusal, the premise of every claim about a run
(spec R102). -/
def RunEnd.safe (r : RunEnd) : Bool := r.faultMark.isNone && r.refusalMark.isNone

/-- The move is the host's issue of a command. -/
def Move.isIssue : Move → Bool
  | .unit => false
  | .deliver _ => false
  | .issue _ => true
  | .read _ => false
  | .reset => false

/-- The run has ended (spec R103): the host has issued its last command, which the unit has taken, and FSM = IDLE.
Moves of other kinds, and the marks, may stand. -/
def State.ended (s : State) : Bool := s.agenda.all (fun m => !m.isIssue) && s.cmds.isEmpty && s.fsm == .idle

/-- The run has ended (spec R103), with or without marks. -/
def RunEnd.ended (r : RunEnd) : Bool := r.last.ended

/-! ### Runs without end

State holds what stands on an interface at one moment, which is finite. What an agent does for ever, an RX source that
delivers an infinite sequence of events above all (spec R53), is a schedule the run is given (log 25). -/

/-- Who moves at each moment, for ever. -/
abbrev Schedule := Nat → Move

/-- The move `m` at the end of a run. -/
def RunEnd.advanceBy (r : RunEnd) (m : Move) : RunEnd := { r with last := { r.last with agenda := [m] } }.advance

/-- The first `k` moves of a schedule, from `s`. -/
def runUnder (moves : Schedule) : Nat → State → RunEnd
  | 0, s => { last := { s with agenda := [] }, faultMark := none, refusalMark := none }
  | k + 1, s => (runUnder moves k s).advanceBy (moves k)

/-- The event a move delivers. -/
def Move.event? : Move → Option RxEvent
  | .unit => none
  | .deliver e => some e
  | .issue _ => none
  | .read _ => none
  | .reset => none

/-- The RX events the first `k` moves of a schedule deliver (spec R53). -/
def delivered (moves : Schedule) (k : Nat) : List RxEvent := (List.range k).filterMap fun i => (moves i).event?

/-- The schedule of an RX source that delivers an infinite sequence, one event before each step of the unit (spec R53). -/
def streamed (src : Nat → RxEvent) : Schedule := fun k => if k % 2 = 0 then .deliver (src (k / 2)) else .unit

/-- The observation at the end of a run (spec R103). -/
structure Observation where
  tx          : List Byte
  rxTaken     : Nat
  encStatus   : BitVec 16
  resStatus   : BitVec 16
  res         : Option FrameRegs
  faultMark   : Option Fault
  refusalMark : Option Refusal
deriving DecidableEq, Repr

/-- What is observed of a run (spec R103). The number of RX events consumed is counted from where the start state's count
stood, 0 for a start from State.reset: the model's choice (DESIGN CHOICE, log 26). -/
def RunEnd.observe (r : RunEnd) : Observation :=
  { tx := r.last.tx
    rxTaken := r.last.rxTaken
    encStatus := r.last.encStatus
    resStatus := r.last.resStatus
    res := r.last.res
    faultMark := r.faultMark
    refusalMark := r.refusalMark }

end Sys2Proof.Machine
end

