-- ==== Sys2Proof/Certificates/Slice0/Obligations.lean ====
section
/-! DEFINITION. The statements for the provers, in the order of spec/: command port, encodings, ENCODE, DECODE,
outcomes, reset, and the whole machine. -/

open Sys2Proof Sys2Proof.Machine

/-! ### The step and the dispatch -/

/-- Spec R97: in IDLE, with the agenda empty, the oldest issued command is taken and dispatched on CMD_OP. A
reserved CMD_OP is refused by name. -/
def Obligations.CommandStepDispatchesOnCmdOp : Prop :=
  ∀ (s : State) (c : Command) (cs : List Command), s.agenda = [] → s.fsm = .idle → s.cmds = c :: cs →
    step s = exec (decodeCommand c) { s with cmds := cs } ∧
    (c.op = 0b01#2 → decodeCommand c = .encode c.id c.ext c.rtr c.dlc c.plen c.pdata.toList) ∧
    (c.op = 0b10#2 → decodeCommand c = .decode) ∧
    (c.op = 0b00#2 ∨ c.op = 0b11#2 → step s = .refused (.reservedCommand c.op))

/-- Spec R86, R139: in D_TYPE, with the agenda empty, the next byte is taken from the RX input and dispatched on. -/
def Obligations.TypeByteStepRunsTheDecodedWireType : Prop :=
  ∀ (s : State) (t : Byte) (es : List RxEvent), s.agenda = [] → s.fsm = .dType → s.rx = .byte t :: es →
    step s = exec (decodeTypeByte t) { s with rx := es, rxTaken := s.rxTaken + 1 }

/-- The model's agenda (log 5): its first move is the step. A unit move has the outcome of a step with an empty agenda,
the moves behind it still standing in its next state. -/
def Obligations.AgendaSaysWhoMovesNext : Prop :=
  ∀ (s : State) (m : Move) (ms : List Move), s.agenda = m :: ms →
    (m = .unit →
      (∀ t, step { s with agenda := [] } = .next t → step s = .next { t with agenda := ms }) ∧
      (∀ f, step { s with agenda := [] } = .fault f → step s = .fault f) ∧
      (∀ r, step { s with agenda := [] } = .refused r → step s = .refused r)) ∧
    (∀ e, m = .deliver e → step s = .next { s with agenda := ms, rx := s.rx ++ [e] }) ∧
    (∀ c, m = .issue c → step s = .next { s with agenda := ms, cmds := s.cmds ++ [c] })

/-- An opcode-table word placed for the next step is the instruction the next step runs (log 12, 13): a command in IDLE,
off the port again; a type byte in D_TYPE, one byte into an attempt, consumed. Nothing else differs from `s`. -/
def Obligations.PlacedWordRunsNext : Prop :=
  ∀ (s : State) (nbits w : Nat) (i : Instr), decodeTableWord nbits w = some i →
    step (s.withFetchWord nbits w) = exec i (match i with
      | .encode _ _ _ _ _ _ | .decode | .reservedCmd00 | .reservedCmd11 => { s with agenda := [], fsm := .idle }
      | .wireStdData _ _ | .wireStdRemote _ _ | .wireExtData _ _ | .wireExtRemote _ _ =>
        { s with
          agenda := []
          fsm := .dType
          work := some { wType := 0x00#8, wId := 0#32, wCnt := 0#4, wNb := 1#5, wData := Vector.replicate 15 0x00#8 }
          rxTaken := s.rxTaken + 1 })

/-! ### Encodings -/

/-- Words written out from spec R80 and from the table of 95_test_vectors.md section 2.3. -/
def Obligations.SpecWordsDecode : Prop :=
  decodeTypeByte 0xC2#8 = .wireStdData 0b11#2 2#4 ∧ decodeTypeByte 0x02#8 = .wireStdData 0b00#2 2#4 ∧
  decodeTypeByte 0xD3#8 = .wireStdRemote 0b11#2 3#4 ∧ decodeTypeByte 0xE0#8 = .wireExtData 0b11#2 0#4 ∧
  decodeTypeByte 0xF8#8 = .wireExtRemote 0b11#2 8#4 ∧ decodeTypeByte 0x3F#8 = .wireExtRemote 0b00#2 15#4 ∧
  decodeTypeByte 0xAA#8 = .wireExtData 0b10#2 10#4 ∧ decodeTypeByte 0x55#8 = .wireStdRemote 0b01#2 5#4 ∧
  (∀ c : Command, c.op = 0b10#2 → decodeCommand c = .decode) ∧
  (∀ c : Command, c.op = 0b00#2 → decodeCommand c = .reservedCmd00) ∧
  (∀ c : Command, c.op = 0b11#2 → decodeCommand c = .reservedCmd11)

/-- Decode and encode agree, over every instruction and every operand value (spec R75, R80, R81, R86); every type byte
and every ENCODE record has one meaning and is got back from it; and decoding answers well-formed instructions. -/
def Obligations.DecodeOfEncodeIsTheInstruction : Prop :=
  (∀ i : Instr, i.wf = true → decodeWord (encode i) = i) ∧
  (∀ t : Byte, encode (decodeTypeByte t) = .typeByte t) ∧
  (∀ c : Command, c.op = 0b01#2 → encode (decodeCommand c) = .command c) ∧
  (∀ w : InstrWord, (decodeWord w).wf = true)

/-- Spec R77: t[7:6] selects nothing. Two type bytes that differ in it alone lead to states that differ in
W_TYPE alone. -/
def Obligations.TypeBitsSevenSixSelectNothing : Prop :=
  ∀ (s : State) (w : Work) (t t' : Byte) (es : List RxEvent),
    s.agenda = [] → s.fsm = .dType → s.work = some w → s.rx = .byte t :: es → t &&& 0x3F#8 = t' &&& 0x3F#8 →
    ∃ u w', step s = .next u ∧ u.work = some w' ∧ w'.wType = t ∧
      step { s with rx := .byte t' :: es } = .next { u with work := some { w' with wType := t' } } ∧
      typeExt t' = typeExt t ∧ typeRtr t' = typeRtr t ∧ typeDlc t' = typeDlc t

/-- Spec R56, R141: the id bytes are little-endian, both ways. -/
def Obligations.IdBytesAreLittleEndian : Prop :=
  (∀ b0 b1 : Byte, (assembleFrom 0#32 0 [b0, b1]).toNat = b0.toNat + 2 ^ 8 * b1.toNat) ∧
  (∀ b0 b1 b2 b3 : Byte,
    (assembleFrom 0#32 0 [b0, b1, b2, b3]).toNat =
      b0.toNat + 2 ^ 8 * b1.toNat + 2 ^ 16 * b2.toNat + 2 ^ 24 * b3.toNat) ∧
  (∀ id : BitVec 32, assembleFrom 0#32 0 (idBytes id true) = id) ∧
  (∀ id : BitVec 32, id.toNat < 2 ^ 16 → assembleFrom 0#32 0 (idBytes id false) = id)

/-! ### ENCODE -/

/-- Spec R71, R112, R114: a command that passes the check appends its wire frame, written out here byte by byte,
and writes ENC_STATUS with RESULT OK, no error flag, and NBYTES the frame's length; nothing else changes. -/
def Obligations.EncodeAppendsTheWireFrame : Prop :=
  ∀ (s : State) (id : BitVec 32) (ext rtr : Bool) (dlc plen : BitVec 4) (pdata : List Byte),
    s.fsm = .idle → pdata.length = 8 → dlc.toNat ≤ 8 → plen = dlc →
    (ext = false → id.toNat < 0x800) → (ext = true → id.toNat < 0x20000000) →
    exec (.encode id ext rtr dlc plen pdata) s = .next { s with
      tx := s.tx ++ [0xAA#8,
          0xC0#8 ||| (if ext then 0x20#8 else 0x00#8) ||| (if rtr then 0x10#8 else 0x00#8) ||| dlc.setWidth 8] ++
        (if ext then [id.extractLsb' 0 8, id.extractLsb' 8 8, id.extractLsb' 16 8, id.extractLsb' 24 8]
          else [id.extractLsb' 0 8, id.extractLsb' 8 8]) ++
        pdata.take dlc.toNat ++ [0x55#8]
      encStatus := BitVec.ofNat 16 (1 + 256 * ((if ext then 7 else 5) + dlc.toNat)) }

/-- Spec R115, R172: a command that breaks any constraint writes ENC_STATUS with RESULT REJECT, exactly the flags of
the constraints it breaks, and NBYTES 0; no byte is appended and nothing else changes. -/
def Obligations.EncodeRejectsEveryViolation : Prop :=
  ∀ (s : State) (id : BitVec 32) (ext rtr : Bool) (dlc plen : BitVec 4) (pdata : List Byte),
    s.fsm = .idle →
    (8 < dlc.toNat ∨ plen ≠ dlc ∨ (ext = false ∧ 0x800 ≤ id.toNat) ∨ (ext = true ∧ 0x20000000 ≤ id.toNat)) →
    exec (.encode id ext rtr dlc plen pdata) s = .next { s with
      encStatus := BitVec.ofNat 16 (2 + (if 8 < dlc.toNat then 4 else 0) + (if plen ≠ dlc then 8 else 0) +
        (if (ext = false ∧ 0x800 ≤ id.toNat) ∨ (ext = true ∧ 0x20000000 ≤ id.toNat) then 16 else 0)) }

/-- Spec R116: equal operands append equal byte sequences and write equal ENC_STATUS values whatever the state, and
no TS value is drawn. -/
def Obligations.EncodeIsAFunctionOfItsOperands : Prop :=
  ∀ (s1 s2 : State) (id : BitVec 32) (ext rtr : Bool) (dlc plen : BitVec 4) (pdata : List Byte),
    s1.fsm = .idle → s2.fsm = .idle →
    ∃ t1 t2 bytes, exec (.encode id ext rtr dlc plen pdata) s1 = .next t1 ∧
      exec (.encode id ext rtr dlc plen pdata) s2 = .next t2 ∧
      t1.tx = s1.tx ++ bytes ∧ t2.tx = s2.tx ++ bytes ∧ t1.encStatus = t2.encStatus ∧
      t1.tsDraws = s1.tsDraws ∧ t2.tsDraws = s2.tsDraws

/-- Spec R113: CMD_RTR changes only bit 4 of the type byte; a remote frame passes the same check and carries the same
dlc payload bytes. -/
def Obligations.RtrChangesOnlyBitFour : Prop :=
  ∀ (s : State) (id : BitVec 32) (ext : Bool) (dlc plen : BitVec 4) (pdata : List Byte), s.fsm = .idle →
    ∃ t t', exec (.encode id ext false dlc plen pdata) s = .next t ∧
      exec (.encode id ext true dlc plen pdata) s = .next t' ∧ t'.encStatus = t.encStatus ∧
      ((t.tx = s.tx ∧ t'.tx = s.tx) ∨
        ∃ (b : Byte) (idb : List Byte), b &&& 0x10#8 = 0x00#8 ∧
          t.tx = s.tx ++ ([0xAA#8, b] ++ idb ++ pdata.take dlc.toNat ++ [0x55#8]) ∧
          t'.tx = s.tx ++ ([0xAA#8, b ||| 0x10#8] ++ idb ++ pdata.take dlc.toNat ++ [0x55#8]))

/-- Spec R96: while the unit is not IDLE a command is not accepted: it has no effect, and in a step it stays where the
host holds it. This says where a command waits, not where it completes (log 10). -/
def Obligations.BusyUnitAcceptsNoCommand : Prop :=
  ∀ (s : State), s.fsm ≠ .idle →
    (∀ id ext rtr dlc plen pdata, exec (.encode id ext rtr dlc plen pdata) s = .next s) ∧
    exec .decode s = .next s ∧
    (∀ t, s.agenda = [] → step s = .next t → t.cmds = s.cmds)

/-- Spec R83: CMD_OP 0b00 and 0b11 are refused by name in every state. In a run the refusal is recorded in a mark that
stays however many more steps are taken, and no codec state changes: the command is off the port, and that is all
(log 1). -/
def Obligations.ReservedCommandsAreRefused : Prop :=
  ∀ (s : State),
    exec .reservedCmd00 s = .refused (.reservedCommand 0b00#2) ∧
    exec .reservedCmd11 s = .refused (.reservedCommand 0b11#2) ∧
    (∀ c cs, s.agenda = [] → s.fsm = .idle → s.cmds = c :: cs → c.op = 0b00#2 ∨ c.op = 0b11#2 →
      runFrom 1 s = { last := { s with cmds := cs }, faultMark := none, refusalMark := some (.reservedCommand c.op) } ∧
      ∀ k, (runFrom (k + 1) s).refusalMark = some (.reservedCommand c.op))

/-! ### DECODE -/

/-- Spec R136: acceptance clears the working registers and starts at D_START; it consumes no RX event and writes no
result register. -/
def Obligations.DecodeAcceptanceStartsFresh : Prop :=
  ∀ (s : State), s.fsm = .idle →
    exec .decode s = .next { s with
      fsm := .dStart
      work := some { wType := 0x00#8, wId := 0#32, wCnt := 0#4, wNb := 0#5, wData := Vector.replicate 15 0x00#8 } }

/-- Spec R138: D_START on a byte. -/
def Obligations.StartStateRule : Prop :=
  ∀ (s : State) (w : Work) (b : Byte) (es : List RxEvent),
    s.agenda = [] → s.fsm = .dStart → s.work = some w → s.rx = .byte b :: es →
    (b = 0xAA#8 → step s = .next { afterEvent s es with fsm := .dType, work := some { w with wNb := w.wNb + 1#5 } }) ∧
    (b ≠ 0xAA#8 → step s = .next (afterNoFrame (afterEvent s es) 3 0 (w.wNb + 1#5).toNat))

/-- Spec R139: the four wire types in D_TYPE. With DLC_POLICY PASS, or dlc at most 8, the id field is next; under
REJECT a dlc above 8 ends the attempt with DLC_RANGE. W_TYPE takes the byte as received either way. That W_NB counts the
byte in the DLC_RANGE step too is the model's choice (log 20: R139's pseudocode against R137's words). -/
def Obligations.TypeByteRule : Prop :=
  ∀ (s : State) (w : Work) (hi : BitVec 2) (dlc : BitVec 4), s.fsm = .dType → s.work = some w →
    ∀ i t, (i, t) ∈ [(Instr.wireStdData hi dlc, hi ++ 0b00#2 ++ dlc), (Instr.wireStdRemote hi dlc, hi ++ 0b01#2 ++ dlc),
        (Instr.wireExtData hi dlc, hi ++ 0b10#2 ++ dlc), (Instr.wireExtRemote hi dlc, hi ++ 0b11#2 ++ dlc)] →
      (s.policy = .pass ∨ dlc.toNat ≤ 8 →
        exec i s = .next { s with
          fsm := .dId, work := some { w with wType := t, wNb := w.wNb + 1#5, wCnt := 0#4 } }) ∧
      (s.policy = .reject → 8 < dlc.toNat →
        exec i s = .next { afterNoFrame s 6 1 (w.wNb + 1#5).toNat with
          work := some { w with wType := t, wNb := w.wNb + 1#5 } })

/-- The model's choice (log 11): outside D_TYPE no type byte is dispatched on, and its meaning stops by name; with no
value in the working registers it faults (spec R37). -/
def Obligations.TypeByteStopsOutsideItsState : Prop :=
  ∀ (s : State) (hi : BitVec 2) (dlc : BitVec 4) (i : Instr),
    i ∈ [Instr.wireStdData hi dlc, .wireStdRemote hi dlc, .wireExtData hi dlc, .wireExtRemote hi dlc] →
    (s.fsm ≠ .dType → exec i s = .refused .notDispatched) ∧
    (s.fsm = .dType → s.work = none → exec i s = .fault .workNoValue)

/-- Spec R141: D_ID on a byte; and two or four such steps from an empty field leave the little-endian sum of the bytes
in W_ID. -/
def Obligations.IdStateRule : Prop :=
  ∀ (s : State) (w : Work), s.agenda = [] → s.fsm = .dId → s.work = some w →
    (∀ b es, s.rx = .byte b :: es →
      (w.wCnt.toNat + 1 = (if w.wType.getLsbD 5 then 4 else 2) →
        step s = .next { afterEvent s es with
          fsm := if w.wType &&& 0x0F#8 = 0#8 then .dEnd else .dData
          work := some { w with
            wId := w.wId ||| (b.setWidth 32 <<< (8 * w.wCnt.toNat)), wNb := w.wNb + 1#5, wCnt := 0#4 } }) ∧
      (w.wCnt.toNat + 1 ≠ (if w.wType.getLsbD 5 then 4 else 2) →
        step s = .next { afterEvent s es with
          work := some { w with
            wId := w.wId ||| (b.setWidth 32 <<< (8 * w.wCnt.toNat)), wNb := w.wNb + 1#5, wCnt := w.wCnt + 1#4 } })) ∧
    (w.wId = 0#32 → w.wCnt = 0#4 → w.wType.getLsbD 5 = false → ∀ b0 b1 es, s.rx = .byte b0 :: .byte b1 :: es →
      ∃ t w', core.run 2 s = .next t ∧ t.rx = es ∧ t.work = some w' ∧
        w'.wId.toNat = b0.toNat + 2 ^ 8 * b1.toNat ∧ t.fsm = (if w.wType &&& 0x0F#8 = 0#8 then .dEnd else .dData)) ∧
    (w.wId = 0#32 → w.wCnt = 0#4 → w.wType.getLsbD 5 = true →
      ∀ b0 b1 b2 b3 es, s.rx = .byte b0 :: .byte b1 :: .byte b2 :: .byte b3 :: es →
        ∃ t w', core.run 4 s = .next t ∧ t.rx = es ∧ t.work = some w' ∧
          w'.wId.toNat = b0.toNat + 2 ^ 8 * b1.toNat + 2 ^ 16 * b2.toNat + 2 ^ 24 * b3.toNat ∧
          t.fsm = (if w.wType &&& 0x0F#8 = 0#8 then .dEnd else .dData))

/-- Spec R142: D_DATA on a byte; and D_DATA is entered only with dlc at least 1, W_CNT staying below dlc. -/
def Obligations.DataStateRule : Prop :=
  (∀ (s : State) (w : Work) (b : Byte) (es : List RxEvent),
    s.agenda = [] → s.fsm = .dData → s.work = some w → s.rx = .byte b :: es →
    ∃ d : Vector Byte 15, (∀ i : Fin 15, d[i.val] = if i.val = w.wCnt.toNat then b else w.wData[i.val]) ∧
      (w.wCnt.toNat + 1 = (w.wType &&& 0x0F#8).toNat →
        step s = .next { afterEvent s es with
          fsm := .dEnd, work := some { w with wData := d, wNb := w.wNb + 1#5, wCnt := 0#4 } }) ∧
      (w.wCnt.toNat + 1 ≠ (w.wType &&& 0x0F#8).toNat →
        step s = .next { afterEvent s es with
          work := some { w with wData := d, wNb := w.wNb + 1#5, wCnt := w.wCnt + 1#4 } })) ∧
  (∀ s t : State, s.inv = true → step s = .next t → t.fsm = .dData →
    ∃ w, t.work = some w ∧ w.wCnt.toNat < (w.wType &&& 0x0F#8).toNat)

/-- Spec R143, R148, R149: D_END on a byte. On 0x55 the frame is accepted: every frame result register is written,
RES_DATA has a value exactly below dlc, RES_TS is one TS draw, RES_STATUS is written whole, and the payload has dlc
bytes. On any other byte the frame is discarded with BAD_END. -/
def Obligations.EndStateRule : Prop :=
  ∀ (s : State) (w : Work) (b : Byte) (es : List RxEvent),
    s.agenda = [] → s.fsm = .dEnd → s.work = some w → s.rx = .byte b :: es →
    (b = 0x55#8 → ∃ r : FrameRegs,
      step s = .next { afterEvent s es with
        fsm := .idle
        res := some r
        tsDraws := s.tsDraws + 1
        resStatus := BitVec.ofNat 16 (1 + 16 * 4 + 128 + 256 * (w.wNb + 1#5).toNat +
          (if 8 < (w.wType &&& 0x0F#8).toNat then 8192 else 0) +
          (if (if w.wType.getLsbD 5 then 0x20000000 else 0x800) ≤ w.wId.toNat then 16384 else 0)) } ∧
      r.resId = w.wId ∧ r.resExt = w.wType.getLsbD 5 ∧ r.resRtr = w.wType.getLsbD 4 ∧
      r.resDlc = w.wType.extractLsb' 0 4 ∧ r.resType = w.wType ∧ r.resTs = Config.tsSample s.tsDraws ∧
      (∀ i : Fin 15, r.resData[i.val] = if i.val < r.resDlc.toNat then some w.wData[i.val] else none) ∧
      r.frame.payload.length = r.resDlc.toNat) ∧
    (b ≠ 0x55#8 → step s = .next (afterNoFrame (afterEvent s es) 4 4 (w.wNb + 1#5).toNat))

/-- Spec R137, R174: a Timeout or a transport Fault ends the attempt in any decoder state, with the state's stage and
the bytes consumed before it. -/
def Obligations.TimeoutAndFaultEndTheAttempt : Prop :=
  ∀ (s : State) (w : Work) (es : List RxEvent) (stage : Nat), s.agenda = [] → s.work = some w →
    (s.fsm, stage) ∈ [(Fsm.dStart, 0), (Fsm.dType, 1), (Fsm.dId, 2), (Fsm.dData, 3), (Fsm.dEnd, 4)] →
    (s.rx = .timeout :: es → step s = .next (afterNoFrame (afterEvent s es) 2 stage w.wNb.toNat)) ∧
    (s.rx = .fault :: es → step s = .next (afterNoFrame (afterEvent s es) 5 stage w.wNb.toNat))

/-- Spec R99, R59: in a decoder state a step always completes when an event is there, and consumes exactly that one. -/
def Obligations.DecoderStepConsumesExactlyOneEvent : Prop :=
  ∀ (s : State) (ev : RxEvent) (es : List RxEvent), s.inv = true → s.agenda = [] → s.fsm ≠ .idle → s.rx = ev :: es →
    ∃ t, step s = .next t ∧ t.rx = es ∧ t.rxTaken = s.rxTaken + 1

/-- Spec R186: a decoder step with no event to read waits and all state is held, for any number of steps. That IDLE with
no command holds all state too is the model's reading (log 7), and so is the agenda that delivers the event the next step
consumes (log 5). -/
def Obligations.WaitHoldsAllState : Prop :=
  ∀ (s : State), s.agenda = [] →
    (s.fsm ≠ .idle → s.rx = [] → ∀ k, core.run k s = .next s) ∧
    (s.fsm = .idle → s.cmds = [] → ∀ k, core.run k s = .next s) ∧
    (s.inv = true → s.fsm ≠ .idle → s.rx = [] → ∀ e,
      ∃ t, core.run 2 { s with agenda := [.deliver e] } = .next t ∧ t.rx = [] ∧ t.rxTaken = s.rxTaken + 1)

/-- Spec R152: from the acceptance of a DECODE, the unit's steps do what `decodeAttempt` says of the events: as many
steps as events consumed, the result it names, and nothing of ENC_STATUS, TX or the commands behind it touched. -/
def Obligations.DecoderStepsComposeIntoTheAttempt : Prop :=
  ∀ (s : State) (c : Command) (cs : List Command),
    s.agenda = [] → s.fsm = .idle → s.cmds = c :: cs → c.op = 0b10#2 →
    ∃ t, core.run (1 + (decodeAttempt s.policy s.rx).2) s = .next t ∧
      t.rx = s.rx.drop (decodeAttempt s.policy s.rx).2 ∧
      t.rxTaken = s.rxTaken + (decodeAttempt s.policy s.rx).2 ∧
      t.cmds = cs ∧ t.tx = s.tx ∧ t.encStatus = s.encStatus ∧ t.policy = s.policy ∧ t.seen = s.seen ∧
      attemptShows s t (decodeAttempt s.policy s.rx).1

/-- Spec R8: an attempt consumes at most 22 events, at most 15 under REJECT, and one that has ended at least one. -/
def Obligations.AttemptLengthBounds : Prop :=
  ∀ (p : DlcPolicy) (evs : List RxEvent),
    (decodeAttempt p evs).2 ≤ 22 ∧ (p = .reject → (decodeAttempt p evs).2 ≤ 15) ∧
    ((decodeAttempt p evs).1 ≠ .wait → 1 ≤ (decodeAttempt p evs).2)

/-- Spec R99: with 22 events at hand a DECODE completes, in at least two and at most 23 unit steps. -/
def Obligations.DecodeCompletesWithinTwentyThreeSteps : Prop :=
  ∀ (s : State) (c : Command) (cs : List Command),
    s.agenda = [] → s.fsm = .idle → s.cmds = c :: cs → c.op = 0b10#2 → 22 ≤ s.rx.length →
    ∃ k t, 2 ≤ k ∧ k ≤ 23 ∧ core.run k s = .next t ∧ t.fsm = .idle ∧ t.cmds = cs ∧
      ∀ j u, 1 ≤ j → j < k → core.run j s = .next u → u.fsm ≠ .idle

/-- Spec R147: NBYTES counts the byte events consumed, one more event is consumed by TIMEOUT and TRANSPORT, and the
stage fixes the count. -/
def Obligations.AttemptAccounting : Prop :=
  ∀ (p : DlcPolicy) (evs : List RxEvent) (r : AttemptResult) (i : Nat), decodeAttempt p evs = (r, i) →
    match r with
    | .wait => i = evs.length
    | .noFrame code stage nb =>
      nb = (evs.take i).countP RxEvent.isByte ∧
      i = nb + (if code = .timeout ∨ code = .transport then 1 else 0) ∧
      ((code = .timeout ∨ code = .transport) → stage = 0#3 → nb = 0) ∧
      ((code = .timeout ∨ code = .transport) → stage = 1#3 → nb = 1) ∧
      (code = .badStart → stage = 0#3 ∧ nb = 1) ∧
      (code = .dlcRange → stage = 1#3 ∧ nb = 2 ∧ p = .reject) ∧
      (code = .badEnd → stage = 4#3) ∧
      (2 ≤ stage.toNat → ∃ t : Byte, evs[1]? = some (.byte t) ∧
        ((code = .timeout ∨ code = .transport) → stage = 2#3 → 2 ≤ nb ∧ nb < 2 + idWidth (typeExt t)) ∧
        ((code = .timeout ∨ code = .transport) → stage = 3#3 →
          2 + idWidth (typeExt t) ≤ nb ∧ nb < 2 + idWidth (typeExt t) + (typeDlc t).toNat) ∧
        ((code = .timeout ∨ code = .transport) → stage = 4#3 → nb = 2 + idWidth (typeExt t) + (typeDlc t).toNat) ∧
        (code = .badEnd → nb = 3 + idWidth (typeExt t) + (typeDlc t).toNat))
    | .frame _ ext _ dlc data _ nb =>
      nb = (evs.take i).countP RxEvent.isByte ∧ i = nb ∧ nb = 3 + idWidth ext + dlc.toNat ∧
      data.length = dlc.toNat

/-- Spec R144: an attempt is one-shot. Two machines that agree in DLC_POLICY and RX input, whatever else differs in
them, run a DECODE in step: the same states, the same working registers, the same events left, and the same outcome. -/
def Obligations.AttemptsCarryNothingOver : Prop :=
  ∀ (s1 s2 : State) (c1 c2 : Command),
    s1.agenda = [] → s2.agenda = [] → s1.fsm = .idle → s2.fsm = .idle →
    s1.cmds = [c1] → s2.cmds = [c2] → c1.op = 0b10#2 → c2.op = 0b10#2 →
    s1.policy = s2.policy → s1.rx = s2.rx →
    ∀ k, ∃ t1 t2, core.run (k + 1) s1 = .next t1 ∧ core.run (k + 1) s2 = .next t2 ∧
      t1.fsm = t2.fsm ∧ t1.work = t2.work ∧ t1.rx = t2.rx ∧
      (t1.fsm = .idle → t1.resStatus = t2.resStatus ∧ t1.res.map FrameRegs.untimed = t2.res.map FrameRegs.untimed)

/-- Spec R146: RTR does not change what the decoder reads: flipping bit 4 of the type byte changes neither how many
events are consumed nor anything of the result but RTR and the type byte itself. -/
def Obligations.RtrChangesNothingRead : Prop :=
  ∀ (p : DlcPolicy) (t : Byte) (es : List RxEvent),
    (decodeAttempt p (.byte 0xAA#8 :: .byte (t ^^^ 0x10#8) :: es)).2 = (decodeAttempt p (.byte 0xAA#8 :: .byte t :: es)).2 ∧
    (decodeAttempt p (.byte 0xAA#8 :: .byte (t ^^^ 0x10#8) :: es)).1.sansRtr =
      (decodeAttempt p (.byte 0xAA#8 :: .byte t :: es)).1.sansRtr

/-- Spec R205: skipping garbage costs one DECODE per garbage byte, each ending with BAD_START, as long as none is
0xAA; what follows is left unread. -/
def Obligations.GarbageCostsOneDecodePerByte : Prop :=
  ∀ (s : State) (garbage : List Byte) (ds cs : List Command) (es : List RxEvent),
    s.agenda = [] → s.fsm = .idle → (∀ b ∈ garbage, b ≠ 0xAA#8) → (∀ d ∈ ds, d.op = 0b10#2) →
    ds.length = garbage.length → s.cmds = ds ++ cs → s.rx = garbage.map .byte ++ es →
    ∃ t, core.run (2 * garbage.length) s = .next t ∧ t.fsm = .idle ∧ t.cmds = cs ∧ t.rx = es ∧
      t.rxTaken = s.rxTaken + garbage.length ∧ t.tx = s.tx ∧ t.encStatus = s.encStatus ∧
      (garbage ≠ [] → t.resStatus = 0x0103#16 ∧ t.res = none)

/-- The round trip (95_test_vectors.md, property PR1): ENCODE of any valid CAN frame appends a wire frame; a DECODE of
exactly those bytes, under either policy, delivers the frame again with neither flag set. -/
def Obligations.EncodedFrameDecodesToItself : Prop :=
  ∀ (s : State) (f : CanFrame), s.agenda = [] → s.fsm = .idle → f.wf = true →
    ∃ t bytes, exec (sendFrame f) s = .next t ∧ t.tx = s.tx ++ bytes ∧
      ∃ u r, core.run (1 + bytes.length) { t with cmds := [bareCommand 0b10#2], rx := bytes.map .byte } = .next u ∧
        u.fsm = .idle ∧ u.rx = [] ∧ u.res = some r ∧ resValid u.resStatus = true ∧
        resDlcGt8 u.resStatus = false ∧ resIdWide u.resStatus = false ∧ bytes[1]? = some r.resType ∧
        r.frame = { f with timestamp := Config.tsSample s.tsDraws }

/-! ### The host's reads -/

/-- Spec R37, with R33's cases: a read of a frame result register has a value exactly while VALID = 1, of RES_DATA[i] exactly
while also i < RES_DLC, and faults otherwise; CMD_READY and the status words always have one. A decoder step that would read
the working registers before any DECODE faults. A read changes nothing of the codec. -/
def Obligations.ReadsFaultExactlyWithoutValue : Prop :=
  (∀ (s : State) (r : HostReg) (ms : List Move), s.inv = true → s.agenda = .read r :: ms →
    (r = .cmdReady → step s = .next { s with agenda := ms, seen := s.seen ++ [(r, if s.fsm = .idle then 1 else 0)] }) ∧
    (r = .encStatus → step s = .next { s with agenda := ms, seen := s.seen ++ [(r, s.encStatus.toNat)] }) ∧
    (r = .resStatus → step s = .next { s with agenda := ms, seen := s.seen ++ [(r, s.resStatus.toNat)] }) ∧
    (r ∈ [HostReg.resId, .resExt, .resRtr, .resDlc, .resType, .resTs] → s.resStatus.getLsbD 7 = false →
      step s = .fault (.noValue r)) ∧
    (r ∈ [HostReg.resId, .resExt, .resRtr, .resDlc, .resType, .resTs] → s.resStatus.getLsbD 7 = true →
      ∃ f v, s.res = some f ∧ step s = .next { s with agenda := ms, seen := s.seen ++ [(r, v)] } ∧
        (r, v) ∈ [(HostReg.resId, f.resId.toNat), (.resExt, f.resExt.toNat), (.resRtr, f.resRtr.toNat),
          (.resDlc, f.resDlc.toNat), (.resType, f.resType.toNat), (.resTs, f.resTs.toNat)]) ∧
    (∀ i, r = .resData i → s.resStatus.getLsbD 7 = false → step s = .fault (.noValue r)) ∧
    (∀ i, r = .resData i → s.resStatus.getLsbD 7 = true → ∃ f, s.res = some f ∧
      (f.resDlc.toNat ≤ i.val → step s = .fault (.noValue r)) ∧
      (i.val < f.resDlc.toNat → ∃ b : Byte, f.resData[i.val] = some b ∧
        step s = .next { s with agenda := ms, seen := s.seen ++ [(r, b.toNat)] }))) ∧
  (∀ (s : State) (ev : RxEvent) (es : List RxEvent), s.agenda = [] → s.fsm ≠ .idle → s.work = none → s.rx = ev :: es →
    step s = .fault .workNoValue)

/-! ### Reset -/

/-- Spec R195, R198: a reset step, in any state, leaves the codec's registers at their reset values and every interface as it was;
a command waiting is not accepted. -/
def Obligations.ResetStepTouchesOnlyTheCodec : Prop :=
  ∀ (s : State) (ms : List Move), s.agenda = .reset :: ms →
    step s = .next { s with
      agenda := ms, fsm := .idle, work := none, encStatus := 0x0000#16, resStatus := 0x0000#16, res := none } ∧
    State.cmdReady { s with
      agenda := ms, fsm := .idle, work := none, encStatus := 0x0000#16, resStatus := 0x0000#16, res := none } = true

/-- Spec R21, R195: the reset value of every register of the codec. -/
def Obligations.ResetStateOfTheSpec : Prop :=
  State.reset.fsm = .idle ∧ State.reset.work = none ∧ State.reset.encStatus = 0x0000#16 ∧
  State.reset.resStatus = 0x0000#16 ∧ State.reset.res = none ∧ State.reset.cmdReady = true ∧
  resCode State.reset.resStatus = 0#4 ∧ resStage State.reset.resStatus = 0#3 ∧
  resValid State.reset.resStatus = false ∧ resNbytes State.reset.resStatus = 0#5 ∧ encResult State.reset.encStatus = 0#2

/-! ### The whole machine -/

/-- The invariant holds at reset. -/
def Obligations.InvariantHoldsAtReset : Prop := State.reset.inv = true

/-- The invariant is kept by every step, whatever stands on the interfaces: ENC_STATUS and RES_STATUS stay legal words
(spec R27 to R31), the result registers have a value exactly while VALID = 1 and RES_DATA exactly below RES_DLC
(spec R33), the byte counts are those of spec R147, and the working registers stand where FSM says (spec R24). -/
def Obligations.EveryStepKeepsTheInvariant : Prop :=
  ∀ s t : State, s.inv = true → step s = .next t → t.inv = true

/-- Spec R28, R150, R204: VALID is 1 exactly when CODE is FRAME and exactly when the frame registers have values; the two
flags say exactly whether dlc and id are out of range; and a frame with neither flag is a valid CAN frame. -/
def Obligations.FlagsTellValidFrames : Prop :=
  ∀ s : State, s.inv = true →
    (resValid s.resStatus = true ↔ resCode s.resStatus = 1#4) ∧
    (resValid s.resStatus = true ↔ s.res.isSome = true) ∧
    (∀ r, s.res = some r →
      (resDlcGt8 s.resStatus = true ↔ 8 < r.resDlc.toNat) ∧
      (resIdWide s.resStatus = true ↔ (if r.resExt then 0x20000000 else 0x800) ≤ r.resId.toNat) ∧
      (resDlcGt8 s.resStatus = false → resIdWide s.resStatus = false → r.frame.wf = true) ∧
      (resDlcGt8 s.resStatus = true → s.policy = .pass))

/-- Spec R100: only the step that ends an attempt, or a reset step, writes RES_STATUS or the frame result registers. -/
def Obligations.ResultsChangeOnlyWhenAnAttemptEnds : Prop :=
  ∀ s t : State, step s = .next t → t.resStatus ≠ s.resStatus ∨ t.res ≠ s.res →
    t.fsm = .idle ∧ ((s.fsm ≠ .idle ∧ t.rxTaken = s.rxTaken + 1) ∨ ∃ ms, s.agenda = .reset :: ms)

/-- Spec R55, R60: only an ENCODE accepted in IDLE changes TX or (but for reset) ENC_STATUS, TX only grows, and that step
touches no RX event and no register of the decoder. -/
def Obligations.OnlyEncodeTouchesTxAndItsStatus : Prop :=
  ∀ s t : State, step s = .next t →
    s.tx <+: t.tx ∧
    (t.tx ≠ s.tx ∨ t.encStatus ≠ s.encStatus →
      (∃ ms, s.agenda = .reset :: ms ∧ t.tx = s.tx) ∨
      (s.fsm = .idle ∧ (∃ c, s.cmds = c :: t.cmds ∧ c.op = 0b01#2) ∧ t.fsm = .idle ∧ t.rx = s.rx ∧
        t.rxTaken = s.rxTaken ∧ t.work = s.work ∧ t.res = s.res ∧ t.resStatus = s.resStatus ∧ t.tsDraws = s.tsDraws))

/-- Spec R59, R60: RX events are consumed in order, at most one a step, each once, and only outside IDLE; the only other change
is a delivery at the end. -/
def Obligations.RxEventsAreConsumedInOrderOnce : Prop :=
  ∀ s t : State, step s = .next t →
    (t.rx = s.rx ∧ t.rxTaken = s.rxTaken) ∨
    (s.fsm ≠ .idle ∧ (∃ ev, s.rx = ev :: t.rx) ∧ t.rxTaken = s.rxTaken + 1) ∨
    (∃ e ms, s.agenda = .deliver e :: ms ∧ t.rx = s.rx ++ [e] ∧ t.rxTaken = s.rxTaken)

/-- Spec R96: commands are accepted in the order issued, at most one a step, and only in IDLE. -/
def Obligations.CommandsAreAcceptedInOrderOnlyInIdle : Prop :=
  ∀ s t : State, step s = .next t →
    t.cmds = s.cmds ∨ (s.fsm = .idle ∧ ∃ c, s.cmds = c :: t.cmds ∧ (c.op = 0b01#2 ∨ c.op = 0b10#2)) ∨
    (∃ c ms, s.agenda = .issue c :: ms ∧ t.cmds = s.cmds ++ [c])

/-- Spec R7, R34: no step changes DLC_POLICY. A TS value is drawn, and is RES_TS, in the unit's step on 0x55 in D_END, which
accepts a frame; no other step draws one. -/
def Obligations.PolicyStaysAndTsIsDrawnOncePerFrame : Prop :=
  ∀ s t : State, step s = .next t →
    t.policy = s.policy ∧
    ((s.agenda = [] ∨ ∃ ms, s.agenda = .unit :: ms) ∧ s.fsm = .dEnd ∧ (∃ es, s.rx = .byte 0x55#8 :: es) →
      t.tsDraws = s.tsDraws + 1 ∧ t.fsm = .idle ∧ ∃ r, t.res = some r ∧ r.resTs = Config.tsSample s.tsDraws) ∧
    (¬((s.agenda = [] ∨ ∃ ms, s.agenda = .unit :: ms) ∧ s.fsm = .dEnd ∧ ∃ es, s.rx = .byte 0x55#8 :: es) →
      t.tsDraws = s.tsDraws)

/-- Spec R102, R33, R37: the machine refuses nothing but a reserved command, and from a state of the invariant it faults
only on a host read of a register without value: a frame result register while VALID = 0, or RES_DATA[i] at or beyond
RES_DLC. -/
def Obligations.StepsStopOnlyWhereTheSpecSays : Prop :=
  ∀ s : State,
    (∀ r, step s = .refused r → s.fsm = .idle ∧ ∃ c cs, s.cmds = c :: cs ∧ (c.op = 0b00#2 ∨ c.op = 0b11#2) ∧
      r = .reservedCommand c.op) ∧
    (∀ f, s.inv = true → step s = .fault f → ∃ r ms, s.agenda = .read r :: ms ∧ f = .noValue r ∧ s.hostValue r = none ∧
      r ∉ [HostReg.cmdReady, .encStatus, .resStatus] ∧
      (s.resStatus.getLsbD 7 = false ∨ ∃ i g, r = .resData i ∧ s.res = some g ∧ g.resDlc.toNat ≤ i.val))

/-- Spec R102: a mark, once recorded, is cleared by no later step; the runs without a mark are the machine's runs.
That a run goes on after a mark is the model's choice (log 1). -/
def Obligations.MarksAreNeverCleared : Prop :=
  ∀ (s : State) (k j : Nat),
    (∀ f, (runFrom k s).faultMark = some f → (runFrom (k + j) s).faultMark = some f) ∧
    (∀ r, (runFrom k s).refusalMark = some r → (runFrom (k + j) s).refusalMark = some r) ∧
    ((runFrom k s).safe = true → core.run k s = .next (runFrom k s).last) ∧
    (∀ t, core.run k s = .next t → (runFrom k s).safe = true ∧ (runFrom k s).last = t)

/-- Spec R103: a run whose RX source holds 22 events for each command ends, in at most 23 steps for each, whatever the
commands are; it is then observed with a refusal mark exactly when one of them was reserved (log 1), and with no fault
mark. -/
def Obligations.EveryFedRunEndsAndShowsItsMarks : Prop :=
  ∀ s : State, s.agenda = [] → s.fsm = .idle → 22 * s.cmds.length ≤ s.rx.length →
    ∃ k, k ≤ 23 * s.cmds.length ∧ (runFrom k s).ended = true ∧
      (runFrom k s).observe.faultMark = none ∧
      ((runFrom k s).observe.refusalMark ≠ none ↔ ∃ c ∈ s.cmds, c.op = 0b00#2 ∨ c.op = 0b11#2)

/-! ### Runs without end -/

/-- Spec R53, R59: under every schedule, a finite or infinite sequence of events delivered at any moments among them, the
first moves are a run of the machine given them as its agenda; the invariant stands throughout; and the RX input is what
was delivered with the events consumed gone from its front, none lost and none out of order. The schedule is the model's
form of the environment (log 25). -/
def Obligations.EveryEventSequenceIsAdmitted : Prop :=
  ∀ (s : State) (moves : Schedule) (k : Nat), s.agenda = [] →
    runFrom k { s with agenda := (List.range k).map moves } = runUnder moves k s ∧
    (s.inv = true → (runUnder moves k s).last.inv = true) ∧
    s.rxTaken ≤ (runUnder moves k s).last.rxTaken ∧
    (runUnder moves k s).last.rx =
      (s.rx ++ delivered moves k).drop ((runUnder moves k s).last.rxTaken - s.rxTaken) ∧
    (runUnder moves k s).last.rxTaken - s.rxTaken ≤ s.rx.length + (delivered moves k).length

/-- Spec R53, R152: for every infinite sequence of events, one delivered before each step of the unit, a DECODE ends, with
no mark, in the state `decodeAttempt` describes of the first 22 events it can read; the events it did not consume still
stand (schedule: log 25). -/
def Obligations.InfiniteSourceFeedsTheAttempt : Prop :=
  ∀ (src : Nat → RxEvent) (s : State) (c : Command) (cs : List Command) (r : AttemptResult) (n : Nat),
    s.agenda = [] → s.fsm = .idle → s.cmds = c :: cs → c.op = 0b10#2 →
    decodeAttempt s.policy (s.rx ++ (List.range 22).map src) = (r, n) →
    ∃ t, runUnder (streamed src) (2 * (1 + n)) s = { last := t, faultMark := none, refusalMark := none } ∧
      t.fsm = .idle ∧ t.cmds = cs ∧ t.tx = s.tx ∧ t.encStatus = s.encStatus ∧ t.rxTaken = s.rxTaken + n ∧
      t.rx = (s.rx ++ (List.range (1 + n)).map src).drop n ∧ attemptShows s t r
end

