-- ==== Sys2Proof/Laws/Status.lean ====
section
/-! SUPPORT. The fields of the two status words and of the type byte, read back from their layouts. -/

namespace Sys2Proof.Machine

/-! ### ENC_STATUS (spec R27) -/

@[simp] theorem encResult_encStatusWord (r : BitVec 2) (f : EncFlags) (n : BitVec 4) :
    encResult (encStatusWord r f n) = r := by
  ext i hi; interval_cases i <;> simp [encResult, encStatusWord]

@[simp] theorem encNbytes_encStatusWord (r : BitVec 2) (f : EncFlags) (n : BitVec 4) :
    encNbytes (encStatusWord r f n) = n := by
  ext i hi; interval_cases i <;> simp [encNbytes, encStatusWord]

@[simp] theorem encReserved_encStatusWord (r : BitVec 2) (f : EncFlags) (n : BitVec 4) :
    encReserved (encStatusWord r f n) = 0#16 := by
  ext i hi; interval_cases i <;> simp [encReserved, encStatusWord]

@[simp] theorem encFlagsOf_encStatusWord (r : BitVec 2) (f : EncFlags) (n : BitVec 4) :
    encFlagsOf (encStatusWord r f n) = f := by
  cases f; simp [encFlagsOf, encStatusWord]

/-! ### RES_STATUS (spec R28) -/

@[simp] theorem resCode_resStatusWord (c : ResCode) (st : BitVec 3) (v : Bool) (nb : BitVec 5) (g w : Bool) :
    resCode (resStatusWord c st v nb g w) = codeBits c := by
  ext i hi; interval_cases i <;> simp [resCode, resStatusWord]

@[simp] theorem resStage_resStatusWord (c : ResCode) (st : BitVec 3) (v : Bool) (nb : BitVec 5) (g w : Bool) :
    resStage (resStatusWord c st v nb g w) = st := by
  ext i hi; interval_cases i <;> simp [resStage, resStatusWord]

@[simp] theorem resNbytes_resStatusWord (c : ResCode) (st : BitVec 3) (v : Bool) (nb : BitVec 5) (g w : Bool) :
    resNbytes (resStatusWord c st v nb g w) = nb := by
  ext i hi; interval_cases i <;> simp [resNbytes, resStatusWord]

@[simp] theorem resValid_resStatusWord (c : ResCode) (st : BitVec 3) (v : Bool) (nb : BitVec 5) (g w : Bool) :
    resValid (resStatusWord c st v nb g w) = v := by
  simp [resValid, resStatusWord]

@[simp] theorem resDlcGt8_resStatusWord (c : ResCode) (st : BitVec 3) (v : Bool) (nb : BitVec 5) (g w : Bool) :
    resDlcGt8 (resStatusWord c st v nb g w) = g := by
  simp [resDlcGt8, resStatusWord]

@[simp] theorem resIdWide_resStatusWord (c : ResCode) (st : BitVec 3) (v : Bool) (nb : BitVec 5) (g w : Bool) :
    resIdWide (resStatusWord c st v nb g w) = w := by
  simp [resIdWide, resStatusWord]

@[simp] theorem resReserved_resStatusWord (c : ResCode) (st : BitVec 3) (v : Bool) (nb : BitVec 5) (g w : Bool) :
    resReserved (resStatusWord c st v nb g w) = false := by
  simp [resReserved, resStatusWord]

/-! ### The type byte (spec R75 to R77) -/

@[simp] theorem typeHi_typeByteOf (hi : BitVec 2) (e r : Bool) (d : BitVec 4) :
    typeHi (typeByteOf hi e r d) = hi := by
  ext i h; interval_cases i <;> simp [typeHi, typeByteOf]

@[simp] theorem typeExt_typeByteOf (hi : BitVec 2) (e r : Bool) (d : BitVec 4) :
    typeExt (typeByteOf hi e r d) = e := by
  simp [typeExt, typeByteOf]

@[simp] theorem typeRtr_typeByteOf (hi : BitVec 2) (e r : Bool) (d : BitVec 4) :
    typeRtr (typeByteOf hi e r d) = r := by
  simp [typeRtr, typeByteOf]

@[simp] theorem typeDlc_typeByteOf (hi : BitVec 2) (e r : Bool) (d : BitVec 4) :
    typeDlc (typeByteOf hi e r d) = d := by
  ext i h; interval_cases i <;> simp [typeDlc, typeByteOf]

/-- The byte the encoder assembles by OR is the one with FIXED = 0b11 (spec R76, R75). -/
theorem emitType_eq_typeByteOf (e r : Bool) (d : BitVec 4) : emitType e r d = typeByteOf 0b11#2 e r d := by
  cases e <;> cases r <;> ext i h <;> interval_cases i <;>
    simp [emitType, typeFixed, typeByteOf]

/-! ### The status words as numbers (spec R27, R28) -/

/-- OR with a field above is addition. -/
theorem or_field {a b : Nat} (k i : Nat) (hk : k = 2 ^ i) (h : b < k) : b ||| a * k = b + a * k := by
  subst hk
  rw [Nat.or_comm, ← Nat.shiftLeft_eq, ← Nat.shiftLeft_add_eq_or_of_lt h, Nat.add_comm]

/-- RES_STATUS is the sum of its fields, each times the weight of its lowest bit (spec R28). -/
theorem resStatusWord_eq_ofNat (c : ResCode) (st : BitVec 3) (v : Bool) (nb : BitVec 5) (g w : Bool) :
    resStatusWord c st v nb g w =
      BitVec.ofNat 16 ((codeBits c).toNat + 16 * st.toNat + 128 * v.toNat + 256 * nb.toNat + 8192 * g.toNat +
        16384 * w.toNat) := by
  have hs := st.isLt
  have hc := (codeBits c).isLt
  have hn := nb.isLt
  have hv := v.toNat_lt
  have hg := g.toNat_lt
  have hw := w.toNat_lt
  apply BitVec.eq_of_toNat_eq
  have e0 : (codeBits c).toNat % 65536 = (codeBits c).toNat := by omega
  have e1 : st.toNat * 16 % 65536 = st.toNat * 16 := by omega
  have e2 : v.toNat * 128 % 65536 = v.toNat * 128 := by omega
  have e3 : nb.toNat * 256 % 65536 = nb.toNat * 256 := by omega
  have e4 : g.toNat * 8192 % 65536 = g.toNat * 8192 := Nat.mod_eq_of_lt (by omega)
  have e5 : w.toNat * 16384 % 65536 = w.toNat * 16384 := Nat.mod_eq_of_lt (by omega)
  simp [resStatusWord, BitVec.toNat_shiftLeft, Nat.shiftLeft_eq, e0, e1, e2, e3, e4, e5]
  rw [or_field 16 4 (by norm_num) (by omega), or_field 128 7 (by norm_num) (by omega), or_field 256 8 (by norm_num) (by omega), or_field 8192 13 (by norm_num) (by omega),
    or_field 16384 14 (by norm_num) (by omega)]
  omega

/-- ENC_STATUS is the sum of its fields, each times the weight of its lowest bit (spec R27). -/
theorem encStatusWord_eq_ofNat (r : BitVec 2) (f : EncFlags) (nb : BitVec 4) :
    encStatusWord r f nb =
      BitVec.ofNat 16 (r.toNat + 4 * f.errDlc.toNat + 8 * f.errLen.toNat + 16 * f.errId.toNat + 256 * nb.toNat) := by
  have hs := r.isLt
  have hn := nb.isLt
  have hv := f.errDlc.toNat_lt
  have hg := f.errLen.toNat_lt
  have hw := f.errId.toNat_lt
  apply BitVec.eq_of_toNat_eq
  have e0 : r.toNat % 65536 = r.toNat := by omega
  have e1 : f.errDlc.toNat * 4 % 65536 = f.errDlc.toNat * 4 := by omega
  have e2 : f.errLen.toNat * 8 % 65536 = f.errLen.toNat * 8 := by omega
  have e3 : f.errId.toNat * 16 % 65536 = f.errId.toNat * 16 := by omega
  have e4 : nb.toNat * 256 % 65536 = nb.toNat * 256 := by omega
  simp [encStatusWord, BitVec.toNat_shiftLeft, Nat.shiftLeft_eq, e0, e1, e2, e3, e4]
  rw [or_field 4 2 (by norm_num) (by omega), or_field 8 3 (by norm_num) (by omega), or_field 16 4 (by norm_num) (by omega), or_field 256 8 (by norm_num) (by omega)]
  omega

end Sys2Proof.Machine
end

