-- ==== Sys2Proof/Laws/Wire.lean ====
section
/-! SUPPORT. The wire frame's parts: the type byte put together from its fields, the id bytes, the payload
buffers, and the lengths. -/

namespace Sys2Proof.Machine

/-- A type byte is its four fields (spec R75). -/
@[simp] theorem typeByteOf_fields (t : Byte) : typeByteOf (typeHi t) (typeExt t) (typeRtr t) (typeDlc t) = t := by
  ext i h
  interval_cases i <;> simp [typeByteOf, typeHi, typeExt, typeRtr, typeDlc]

/-- Decoding the byte with given fields (spec R86). -/
theorem decodeTypeByte_typeByteOf (hi : BitVec 2) (e r : Bool) (d : BitVec 4) :
    decodeTypeByte (typeByteOf hi e r d) =
      match e, r with
      | false, false => .wireStdData hi d
      | false, true => .wireStdRemote hi d
      | true, false => .wireExtData hi d
      | true, true => .wireExtRemote hi d := by
  cases e <;> cases r <;> simp [decodeTypeByte]

@[simp] theorem pdataField_toList_length (l : List Byte) : (pdataField l).toList.length = 8 := by simp

/-- Eight byte fields read back give the eight bytes (spec R81). -/
theorem pdataField_toList {l : List Byte} (h : l.length = 8) : (pdataField l).toList = l := by
  apply List.ext_getElem
  · simp [h]
  · intro i h1 h2
    simp [pdataField, List.getElem?_eq_getElem h2]

/-- A byte field's list of bytes put back gives the byte fields (spec R81). -/
@[simp] theorem pdataField_of_toList (v : Vector Byte 8) : pdataField v.toList = v := by
  ext i h
  simp [pdataField]

/-- Byte `i` of the list of the byte fields (spec R81). -/
theorem pdataField_getElem (l : List Byte) (i : Nat) (h : i < 8) : (pdataField l)[i] = l.getD i 0#8 := by
  simp [pdataField]

@[simp] theorem idBytes_std (id : BitVec 32) : idBytes id false = [idByte id 0, idByte id 1] := rfl

@[simp] theorem idBytes_ext (id : BitVec 32) :
    idBytes id true = [idByte id 0, idByte id 1, idByte id 2, idByte id 3] := rfl

@[simp] theorem idBytes_length (id : BitVec 32) (e : Bool) : (idBytes id e).length = idWidth e := by
  simp [idBytes]

/-- The id a standard frame's two bytes assemble (spec R56). -/
theorem assemble_std (id : BitVec 32) (h : id.toNat < 2 ^ 16) : assembleFrom 0#32 0 (idBytes id false) = id := by
  have hz : ∀ i, 16 ≤ i → id.getLsbD i = false := fun i hi =>
    Nat.testBit_lt_two_pow (Nat.lt_of_lt_of_le h (Nat.pow_le_pow_right (by decide) hi))
  ext i hi
  simp only [idBytes_std, assembleFrom, placeIdByte, idByte]
  interval_cases i <;> simp [← BitVec.getLsbD_eq_getElem, hz]

/-- The id an extended frame's four bytes assemble (spec R56). -/
theorem assemble_ext (id : BitVec 32) : assembleFrom 0#32 0 (idBytes id true) = id := by
  ext i hi
  simp only [idBytes_ext, assembleFrom, placeIdByte, idByte]
  interval_cases i <;> simp

@[simp] theorem putData_getElem (d : Vector Byte 15) (i : Nat) (b : Byte) (j : Nat) (h : j < 15) :
    (putData d i b)[j] = if j = i then b else d[j] := by
  simp [putData]

@[simp] theorem captureData_getElem (d : Vector Byte 15) (dlc : BitVec 4) (j : Nat) (h : j < 15) :
    (captureData d dlc)[j] = if j < dlc.toNat then some d[j] else none := by
  simp [captureData]

/-- The length of the wire function's frame (spec R72), when there are enough payload bytes. -/
theorem wireFrame_length (id : BitVec 32) (e r : Bool) (d : BitVec 4) (p : List Byte) (h : d.toNat ≤ p.length) :
    (wireFrame id e r d p).length = frameLength e d := by
  simp [wireFrame, frameLength, Nat.min_eq_left h]; omega

end Sys2Proof.Machine
end

