-- ==== Sys2Proof/Laws/PerInstr.lean ====
section
/-! SUPPORT. Facts about every instruction as syntax, one lemma per constructor. -/

namespace Sys2Proof.Laws

/-- The `match` of a command row of spec/opcode_table.json: CMD_OP. -/
def rowOp : Instr → Option (BitVec 2)
  | .encode _ _ _ _ _ _ => some 0b01#2
  | .decode => some 0b10#2
  | .reservedCmd00 => some 0b00#2
  | .reservedCmd11 => some 0b11#2
  | .wireStdData _ _ => none
  | .wireStdRemote _ _ => none
  | .wireExtData _ _ => none
  | .wireExtRemote _ _ => none

/-- The `match` of a wire row of spec/opcode_table.json, under its mask 0x30: t[5:4]. -/
def rowType : Instr → Option Byte
  | .encode _ _ _ _ _ _ => none
  | .decode => none
  | .reservedCmd00 => none
  | .reservedCmd11 => none
  | .wireStdData _ _ => some 0x00#8
  | .wireStdRemote _ _ => some 0x10#8
  | .wireExtData _ _ => some 0x20#8
  | .wireExtRemote _ _ => some 0x30#8

/-- The word of a well-formed instruction has the bits its opcode-table row fixes. -/
def EncodesAsItsRow.Statement (i : Instr) : Prop :=
  i.wf = true →
    match encode i with
    | .command c => rowOp i = some c.op
    | .typeByte t => rowType i = some (t &&& 0x30#8)

/-- t[5:4] of a type byte put together from its fields (spec R75). -/
theorem typeByteOf_and_mask (hi : BitVec 2) (e r : Bool) (d : BitVec 4) :
    typeByteOf hi e r d &&& 0x30#8 = typeByteOf 0#2 e r 0#4 := by
  cases e <;> cases r <;> revert hi d <;> decide

theorem EncodesAsItsRow.encode (id : BitVec 32) (ext rtr : Bool) (dlc plen : BitVec 4) (pdata : List Byte) :
    EncodesAsItsRow.Statement (.encode id ext rtr dlc plen pdata) := fun _ => rfl

theorem EncodesAsItsRow.decode : EncodesAsItsRow.Statement .decode := fun _ => rfl

theorem EncodesAsItsRow.reservedCmd00 : EncodesAsItsRow.Statement .reservedCmd00 := fun _ => rfl

theorem EncodesAsItsRow.reservedCmd11 : EncodesAsItsRow.Statement .reservedCmd11 := fun _ => rfl

theorem EncodesAsItsRow.wireStdData (hi : BitVec 2) (dlc : BitVec 4) :
    EncodesAsItsRow.Statement (.wireStdData hi dlc) := fun _ => by
  simp only [Sys2Proof.encode, rowType, typeByteOf_and_mask]; decide

theorem EncodesAsItsRow.wireStdRemote (hi : BitVec 2) (dlc : BitVec 4) :
    EncodesAsItsRow.Statement (.wireStdRemote hi dlc) := fun _ => by
  simp only [Sys2Proof.encode, rowType, typeByteOf_and_mask]; decide

theorem EncodesAsItsRow.wireExtData (hi : BitVec 2) (dlc : BitVec 4) :
    EncodesAsItsRow.Statement (.wireExtData hi dlc) := fun _ => by
  simp only [Sys2Proof.encode, rowType, typeByteOf_and_mask]; decide

theorem EncodesAsItsRow.wireExtRemote (hi : BitVec 2) (dlc : BitVec 4) :
    EncodesAsItsRow.Statement (.wireExtRemote hi dlc) := fun _ => by
  simp only [Sys2Proof.encode, rowType, typeByteOf_and_mask]; decide

end Sys2Proof.Laws
end

