-- ==== Sys2Proof/Laws/State.lean ====
section
/-! SUPPORT. What each shared operation does to each field of the state: one lemma per field, true by rfl. -/

namespace Sys2Proof.Machine

variable (s : State)

/-! ### `rxTake` (spec R52): the events left and the count of those consumed -/

@[simp] theorem rxTake_policy (es : List RxEvent) : (s.rxTake es).policy = s.policy := rfl
@[simp] theorem rxTake_fsm (es : List RxEvent) : (s.rxTake es).fsm = s.fsm := rfl
@[simp] theorem rxTake_work (es : List RxEvent) : (s.rxTake es).work = s.work := rfl
@[simp] theorem rxTake_encStatus (es : List RxEvent) : (s.rxTake es).encStatus = s.encStatus := rfl
@[simp] theorem rxTake_resStatus (es : List RxEvent) : (s.rxTake es).resStatus = s.resStatus := rfl
@[simp] theorem rxTake_res (es : List RxEvent) : (s.rxTake es).res = s.res := rfl
@[simp] theorem rxTake_cmds (es : List RxEvent) : (s.rxTake es).cmds = s.cmds := rfl
@[simp] theorem rxTake_rx (es : List RxEvent) : (s.rxTake es).rx = es := rfl
@[simp] theorem rxTake_tx (es : List RxEvent) : (s.rxTake es).tx = s.tx := rfl
@[simp] theorem rxTake_rxTaken (es : List RxEvent) : (s.rxTake es).rxTaken = s.rxTaken + 1 := rfl
@[simp] theorem rxTake_tsDraws (es : List RxEvent) : (s.rxTake es).tsDraws = s.tsDraws := rfl
@[simp] theorem rxTake_seen (es : List RxEvent) : (s.rxTake es).seen = s.seen := rfl
@[simp] theorem rxTake_agenda (es : List RxEvent) : (s.rxTake es).agenda = s.agenda := rfl

/-! ### `txAppend` (spec R55): the TX output only -/

@[simp] theorem txAppend_policy (bytes : List Byte) : (s.txAppend bytes).policy = s.policy := rfl
@[simp] theorem txAppend_fsm (bytes : List Byte) : (s.txAppend bytes).fsm = s.fsm := rfl
@[simp] theorem txAppend_work (bytes : List Byte) : (s.txAppend bytes).work = s.work := rfl
@[simp] theorem txAppend_encStatus (bytes : List Byte) : (s.txAppend bytes).encStatus = s.encStatus := rfl
@[simp] theorem txAppend_resStatus (bytes : List Byte) : (s.txAppend bytes).resStatus = s.resStatus := rfl
@[simp] theorem txAppend_res (bytes : List Byte) : (s.txAppend bytes).res = s.res := rfl
@[simp] theorem txAppend_cmds (bytes : List Byte) : (s.txAppend bytes).cmds = s.cmds := rfl
@[simp] theorem txAppend_rx (bytes : List Byte) : (s.txAppend bytes).rx = s.rx := rfl
@[simp] theorem txAppend_tx (bytes : List Byte) : (s.txAppend bytes).tx = s.tx ++ bytes := rfl
@[simp] theorem txAppend_rxTaken (bytes : List Byte) : (s.txAppend bytes).rxTaken = s.rxTaken := rfl
@[simp] theorem txAppend_tsDraws (bytes : List Byte) : (s.txAppend bytes).tsDraws = s.tsDraws := rfl
@[simp] theorem txAppend_seen (bytes : List Byte) : (s.txAppend bytes).seen = s.seen := rfl
@[simp] theorem txAppend_agenda (bytes : List Byte) : (s.txAppend bytes).agenda = s.agenda := rfl

/-! ### `encAccept` (spec R114): TX and ENC_STATUS -/

@[simp] theorem encAccept_policy (bytes : List Byte) : (s.encAccept bytes).policy = s.policy := rfl
@[simp] theorem encAccept_fsm (bytes : List Byte) : (s.encAccept bytes).fsm = s.fsm := rfl
@[simp] theorem encAccept_work (bytes : List Byte) : (s.encAccept bytes).work = s.work := rfl
@[simp] theorem encAccept_encStatus (bytes : List Byte) :
    (s.encAccept bytes).encStatus =
      encStatusWord resultOk { errDlc := false, errLen := false, errId := false } (BitVec.ofNat 4 bytes.length) := rfl
@[simp] theorem encAccept_resStatus (bytes : List Byte) : (s.encAccept bytes).resStatus = s.resStatus := rfl
@[simp] theorem encAccept_res (bytes : List Byte) : (s.encAccept bytes).res = s.res := rfl
@[simp] theorem encAccept_cmds (bytes : List Byte) : (s.encAccept bytes).cmds = s.cmds := rfl
@[simp] theorem encAccept_rx (bytes : List Byte) : (s.encAccept bytes).rx = s.rx := rfl
@[simp] theorem encAccept_tx (bytes : List Byte) : (s.encAccept bytes).tx = s.tx ++ bytes := rfl
@[simp] theorem encAccept_rxTaken (bytes : List Byte) : (s.encAccept bytes).rxTaken = s.rxTaken := rfl
@[simp] theorem encAccept_tsDraws (bytes : List Byte) : (s.encAccept bytes).tsDraws = s.tsDraws := rfl
@[simp] theorem encAccept_seen (bytes : List Byte) : (s.encAccept bytes).seen = s.seen := rfl
@[simp] theorem encAccept_agenda (bytes : List Byte) : (s.encAccept bytes).agenda = s.agenda := rfl

/-! ### `encReject` (spec R115): ENC_STATUS only -/

@[simp] theorem encReject_policy (f : EncFlags) : (s.encReject f).policy = s.policy := rfl
@[simp] theorem encReject_fsm (f : EncFlags) : (s.encReject f).fsm = s.fsm := rfl
@[simp] theorem encReject_work (f : EncFlags) : (s.encReject f).work = s.work := rfl
@[simp] theorem encReject_encStatus (f : EncFlags) :
    (s.encReject f).encStatus = encStatusWord resultReject f 0#4 := rfl
@[simp] theorem encReject_resStatus (f : EncFlags) : (s.encReject f).resStatus = s.resStatus := rfl
@[simp] theorem encReject_res (f : EncFlags) : (s.encReject f).res = s.res := rfl
@[simp] theorem encReject_cmds (f : EncFlags) : (s.encReject f).cmds = s.cmds := rfl
@[simp] theorem encReject_rx (f : EncFlags) : (s.encReject f).rx = s.rx := rfl
@[simp] theorem encReject_tx (f : EncFlags) : (s.encReject f).tx = s.tx := rfl
@[simp] theorem encReject_rxTaken (f : EncFlags) : (s.encReject f).rxTaken = s.rxTaken := rfl
@[simp] theorem encReject_tsDraws (f : EncFlags) : (s.encReject f).tsDraws = s.tsDraws := rfl
@[simp] theorem encReject_seen (f : EncFlags) : (s.encReject f).seen = s.seen := rfl
@[simp] theorem encReject_agenda (f : EncFlags) : (s.encReject f).agenda = s.agenda := rfl

/-! ### `noFrame` (spec R151): FSM, RES_STATUS and the loss of the frame registers' values -/

@[simp] theorem noFrame_policy (code : ResCode) (stage : BitVec 3) (nb : BitVec 5) :
    (s.noFrame code stage nb).policy = s.policy := rfl
@[simp] theorem noFrame_fsm (code : ResCode) (stage : BitVec 3) (nb : BitVec 5) :
    (s.noFrame code stage nb).fsm = .idle := rfl
@[simp] theorem noFrame_work (code : ResCode) (stage : BitVec 3) (nb : BitVec 5) :
    (s.noFrame code stage nb).work = s.work := rfl
@[simp] theorem noFrame_encStatus (code : ResCode) (stage : BitVec 3) (nb : BitVec 5) :
    (s.noFrame code stage nb).encStatus = s.encStatus := rfl
@[simp] theorem noFrame_resStatus (code : ResCode) (stage : BitVec 3) (nb : BitVec 5) :
    (s.noFrame code stage nb).resStatus = resStatusWord code stage false nb false false := rfl
@[simp] theorem noFrame_res (code : ResCode) (stage : BitVec 3) (nb : BitVec 5) :
    (s.noFrame code stage nb).res = none := rfl
@[simp] theorem noFrame_cmds (code : ResCode) (stage : BitVec 3) (nb : BitVec 5) :
    (s.noFrame code stage nb).cmds = s.cmds := rfl
@[simp] theorem noFrame_rx (code : ResCode) (stage : BitVec 3) (nb : BitVec 5) :
    (s.noFrame code stage nb).rx = s.rx := rfl
@[simp] theorem noFrame_tx (code : ResCode) (stage : BitVec 3) (nb : BitVec 5) :
    (s.noFrame code stage nb).tx = s.tx := rfl
@[simp] theorem noFrame_rxTaken (code : ResCode) (stage : BitVec 3) (nb : BitVec 5) :
    (s.noFrame code stage nb).rxTaken = s.rxTaken := rfl
@[simp] theorem noFrame_tsDraws (code : ResCode) (stage : BitVec 3) (nb : BitVec 5) :
    (s.noFrame code stage nb).tsDraws = s.tsDraws := rfl
@[simp] theorem noFrame_seen (code : ResCode) (stage : BitVec 3) (nb : BitVec 5) :
    (s.noFrame code stage nb).seen = s.seen := rfl
@[simp] theorem noFrame_agenda (code : ResCode) (stage : BitVec 3) (nb : BitVec 5) :
    (s.noFrame code stage nb).agenda = s.agenda := rfl

/-! ### `acceptFrame` (spec R148 to R150): FSM, the frame registers, RES_STATUS and the TS draw -/

@[simp] theorem acceptFrame_policy (w : Work) : (s.acceptFrame w).policy = s.policy := rfl
@[simp] theorem acceptFrame_fsm (w : Work) : (s.acceptFrame w).fsm = .idle := rfl
@[simp] theorem acceptFrame_work (w : Work) : (s.acceptFrame w).work = s.work := rfl
@[simp] theorem acceptFrame_encStatus (w : Work) : (s.acceptFrame w).encStatus = s.encStatus := rfl
@[simp] theorem acceptFrame_resStatus (w : Work) :
    (s.acceptFrame w).resStatus =
      resStatusWord .frame 4#3 true (w.wNb + 1#5) (dlcMax < w.wDlc.toNat) (tooWide w.wId w.wExt) := rfl
@[simp] theorem acceptFrame_res (w : Work) : (s.acceptFrame w).res = some (capture w s.tsNow) := rfl
@[simp] theorem acceptFrame_cmds (w : Work) : (s.acceptFrame w).cmds = s.cmds := rfl
@[simp] theorem acceptFrame_rx (w : Work) : (s.acceptFrame w).rx = s.rx := rfl
@[simp] theorem acceptFrame_tx (w : Work) : (s.acceptFrame w).tx = s.tx := rfl
@[simp] theorem acceptFrame_rxTaken (w : Work) : (s.acceptFrame w).rxTaken = s.rxTaken := rfl
@[simp] theorem acceptFrame_tsDraws (w : Work) : (s.acceptFrame w).tsDraws = s.tsDraws + 1 := rfl
@[simp] theorem acceptFrame_seen (w : Work) : (s.acceptFrame w).seen = s.seen := rfl
@[simp] theorem acceptFrame_agenda (w : Work) : (s.acceptFrame w).agenda = s.agenda := rfl

/-! ### `resetUnit` (spec R195): the codec's registers and nothing else -/

@[simp] theorem resetUnit_policy : (s.resetUnit).policy = s.policy := rfl
@[simp] theorem resetUnit_fsm : (s.resetUnit).fsm = .idle := rfl
@[simp] theorem resetUnit_work : (s.resetUnit).work = none := rfl
@[simp] theorem resetUnit_encStatus : (s.resetUnit).encStatus = 0x0000#16 := rfl
@[simp] theorem resetUnit_resStatus : (s.resetUnit).resStatus = 0x0000#16 := rfl
@[simp] theorem resetUnit_res : (s.resetUnit).res = none := rfl
@[simp] theorem resetUnit_cmds : (s.resetUnit).cmds = s.cmds := rfl
@[simp] theorem resetUnit_rx : (s.resetUnit).rx = s.rx := rfl
@[simp] theorem resetUnit_tx : (s.resetUnit).tx = s.tx := rfl
@[simp] theorem resetUnit_rxTaken : (s.resetUnit).rxTaken = s.rxTaken := rfl
@[simp] theorem resetUnit_tsDraws : (s.resetUnit).tsDraws = s.tsDraws := rfl
@[simp] theorem resetUnit_seen : (s.resetUnit).seen = s.seen := rfl
@[simp] theorem resetUnit_agenda : (s.resetUnit).agenda = s.agenda := rfl

end Sys2Proof.Machine
end

