-- ==== Sys2Proof/Laws/Step.lean ====
section
/-! SUPPORT. What a step can do, said once: the effects of a unit step, and the moves of the other agents. -/

namespace Sys2Proof.Machine

variable {s t : State}

@[simp] theorem cmdReady_iff : s.cmdReady = true ↔ s.fsm = .idle := by simp [State.cmdReady]

theorem withWork_next {k : Work → Result} (h : withWork s k = .next t) :
    ∃ w, s.work = some w ∧ k w = .next t := by
  unfold withWork at h
  split at h
  · exact ⟨_, ‹_›, h⟩
  · cases h

@[simp] theorem withWork_some {w : Work} (h : s.work = some w) (k : Work → Result) : withWork s k = k w := by
  simp [withWork, h]

/-- In D_TYPE the four wire meanings are one rule, that of spec R139. -/
@[simp] theorem exec_decodeTypeByte (b : Byte) : exec (decodeTypeByte b) s = typeDispatch b s := by
  have hb := typeByteOf_fields b
  unfold decodeTypeByte
  split <;> rename_i he hr <;> rw [he, hr] at hb <;>
    simp only [exec, execWireStdData, execWireStdRemote, execWireExtData, execWireExtRemote, hb]

/-- The dispatch on CMD_OP (spec R97). -/
theorem decodeCommand_cases (c : Command) :
    (c.op = opEncode ∧ decodeCommand c = .encode c.id c.ext c.rtr c.dlc c.plen c.pdata.toList) ∨
    (c.op = opDecode ∧ decodeCommand c = .decode) ∨
    (c.op = 0b00#2 ∧ decodeCommand c = .reservedCmd00) ∨
    (c.op = 0b11#2 ∧ decodeCommand c = .reservedCmd11) := by
  have h : c.op = 0b00#2 ∨ c.op = 0b01#2 ∨ c.op = 0b10#2 ∨ c.op = 0b11#2 := by
    generalize c.op = o; revert o; decide
  rcases h with h | h | h | h <;> simp [decodeCommand, opEncode, opDecode, h]

/-- Everything one step of the unit can do when it answers a next state. -/
inductive UnitEffect (s : State) : State → Prop
  /-- IDLE with no command issued. -/
  | noCommand (hf : s.fsm = .idle) (hc : s.cmds = []) : UnitEffect s s
  /-- ENCODE rejected (spec R115). -/
  | encReject {c : Command} {cs : List Command} (hf : s.fsm = .idle) (hc : s.cmds = c :: cs) (ho : c.op = opEncode)
      (hx : (encCheck c.id c.ext c.dlc c.plen).any = true) :
      UnitEffect s ({ s with cmds := cs }.encReject (encCheck c.id c.ext c.dlc c.plen))
  /-- ENCODE accepted (spec R114). -/
  | encAccept {c : Command} {cs : List Command} (hf : s.fsm = .idle) (hc : s.cmds = c :: cs) (ho : c.op = opEncode)
      (hx : (encCheck c.id c.ext c.dlc c.plen).any = false) :
      UnitEffect s ({ s with cmds := cs }.encAccept (wireFrame c.id c.ext c.rtr c.dlc c.pdata.toList))
  /-- DECODE accepted (spec R136). -/
  | decode {c : Command} {cs : List Command} (hf : s.fsm = .idle) (hc : s.cmds = c :: cs) (ho : c.op = opDecode) :
      UnitEffect s { s with cmds := cs, fsm := .dStart, work := some clearedWork }
  /-- A decoder step with no RX event (spec R186). -/
  | wait (hf : s.fsm ≠ .idle) (hr : s.rx = []) : UnitEffect s s
  /-- D_START on a byte (spec R138). -/
  | startByte {b : Byte} {es : List RxEvent} {w : Work} (hf : s.fsm = .dStart) (hr : s.rx = .byte b :: es)
      (hw : s.work = some w) : UnitEffect s (onStartByte b w (s.rxTake es))
  /-- D_TYPE on a byte (spec R139). -/
  | typeByte {b : Byte} {es : List RxEvent} {w : Work} (hf : s.fsm = .dType) (hr : s.rx = .byte b :: es)
      (hw : s.work = some w) : UnitEffect s (onTypeByte b w (s.rxTake es))
  /-- D_ID on a byte (spec R141). -/
  | idByte {b : Byte} {es : List RxEvent} {w : Work} (hf : s.fsm = .dId) (hr : s.rx = .byte b :: es)
      (hw : s.work = some w) : UnitEffect s (onIdByte b w (s.rxTake es))
  /-- D_DATA on a byte (spec R142). -/
  | dataByte {b : Byte} {es : List RxEvent} {w : Work} (hf : s.fsm = .dData) (hr : s.rx = .byte b :: es)
      (hw : s.work = some w) : UnitEffect s (onDataByte b w (s.rxTake es))
  /-- D_END on a byte (spec R143). -/
  | endByte {b : Byte} {es : List RxEvent} {w : Work} (hf : s.fsm = .dEnd) (hr : s.rx = .byte b :: es)
      (hw : s.work = some w) : UnitEffect s (onEndByte b w (s.rxTake es))
  /-- A Timeout in any decoder state (spec R137). -/
  | timeout {es : List RxEvent} {w : Work} (hf : s.fsm ≠ .idle) (hr : s.rx = .timeout :: es) (hw : s.work = some w) :
      UnitEffect s ((s.rxTake es).noFrame .timeout (stageOf s.fsm) w.wNb)
  /-- A transport Fault in any decoder state (spec R137). -/
  | fault {es : List RxEvent} {w : Work} (hf : s.fsm ≠ .idle) (hr : s.rx = .fault :: es) (hw : s.work = some w) :
      UnitEffect s ((s.rxTake es).noFrame .transport (stageOf s.fsm) w.wNb)

theorem commandStep_cases (hf : s.fsm = .idle) (h : commandStep s = .next t) : UnitEffect s t := by
  unfold commandStep at h
  split at h
  · rename_i hc; cases h; exact .noCommand hf hc
  · rename_i c cs hc
    have hr : State.cmdReady { s with cmds := cs } = true := by simp [hf]
    rcases decodeCommand_cases c with ⟨ho, hd⟩ | ⟨ho, hd⟩ | ⟨ho, hd⟩ | ⟨ho, hd⟩ <;> rw [hd] at h <;> simp only [exec] at h
    · unfold execEncode at h
      rw [if_pos hr] at h
      split at h
      · rename_i hx; cases h; exact .encReject hf hc ho hx
      · rename_i hx; cases h; exact .encAccept hf hc ho (by simpa using hx)
    · unfold execDecode at h
      rw [if_pos hr] at h
      cases h; exact .decode hf hc ho
    · cases h
    · cases h

theorem decoderStep_cases (hf : s.fsm ≠ .idle) (h : decoderStep s = .next t) : UnitEffect s t := by
  unfold decoderStep at h
  split at h
  · rename_i hr; cases h; exact .wait hf hr
  · rename_i ev es hr
    cases ev with
    | timeout => obtain ⟨w, hw, hk⟩ := withWork_next h; cases hk; exact .timeout hf hr hw
    | fault => obtain ⟨w, hw, hk⟩ := withWork_next h; cases hk; exact .fault hf hr hw
    | byte b =>
      simp only [onEvent, onByte, rxTake_fsm] at h
      split at h
      · rename_i hf'; exact absurd hf' hf
      · rename_i hf'; obtain ⟨w, hw, hk⟩ := withWork_next h; cases hk; exact .startByte hf' hr hw
      · rename_i hf'
        rw [exec_decodeTypeByte, typeDispatch, if_pos (by simpa using hf')] at h
        obtain ⟨w, hw, hk⟩ := withWork_next h; cases hk; exact .typeByte hf' hr hw
      · rename_i hf'; obtain ⟨w, hw, hk⟩ := withWork_next h; cases hk; exact .idByte hf' hr hw
      · rename_i hf'; obtain ⟨w, hw, hk⟩ := withWork_next h; cases hk; exact .dataByte hf' hr hw
      · rename_i hf'; obtain ⟨w, hw, hk⟩ := withWork_next h; cases hk; exact .endByte hf' hr hw

/-- A unit step that answers a next state has one of the listed effects. -/
theorem unitStep_cases (h : unitStep s = .next t) : UnitEffect s t := by
  unfold unitStep at h
  split at h
  · rename_i hc; exact commandStep_cases (cmdReady_iff.mp hc) h
  · rename_i hc; exact decoderStep_cases (fun hf => hc (cmdReady_iff.mpr hf)) h

/-- What a move of another agent does when it answers a next state. -/
inductive OtherEffect (s : State) : Move → State → Prop
  | deliver (e : RxEvent) : OtherEffect s (.deliver e) { s with rx := s.rx ++ [e] }
  | issue (c : Command) : OtherEffect s (.issue c) { s with cmds := s.cmds ++ [c] }
  | read {r : HostReg} {v : Nat} (hv : s.hostValue r = some v) :
      OtherEffect s (.read r) { s with seen := s.seen ++ [(r, v)] }
  | reset : OtherEffect s .reset s.resetUnit

/-- A step that answers a next state is a unit step or another agent's move (log 5). -/
theorem step_cases (h : step s = .next t) :
    (s.agenda = [] ∧ UnitEffect s t) ∨
    (∃ ms, s.agenda = .unit :: ms ∧ UnitEffect { s with agenda := ms } t) ∨
    (∃ m ms, s.agenda = m :: ms ∧ OtherEffect { s with agenda := ms } m t) := by
  unfold step nextMove at h
  split at h
  · rename_i ha; exact .inl ⟨ha, unitStep_cases h⟩
  · rename_i m ms ha
    cases m with
    | unit => exact .inr (.inl ⟨ms, ha, unitStep_cases h⟩)
    | deliver e => cases h; exact .inr (.inr ⟨_, ms, ha, .deliver e⟩)
    | issue c => cases h; exact .inr (.inr ⟨_, ms, ha, .issue c⟩)
    | reset => cases h; exact .inr (.inr ⟨_, ms, ha, .reset⟩)
    | read r =>
      simp only [move, hostRead] at h
      split at h
      · rename_i hv; cases h; exact .inr (.inr ⟨_, ms, ha, .read hv⟩)
      · cases h

/-- A unit step refuses nothing but a reserved command (spec R83). -/
theorem commandStep_refused {r : Refusal} (hf : s.fsm = .idle) (h : commandStep s = .refused r) :
    ∃ c cs, s.cmds = c :: cs ∧ (c.op = 0b00#2 ∨ c.op = 0b11#2) ∧ r = .reservedCommand c.op := by
  unfold commandStep at h
  split at h
  · cases h
  · rename_i c cs hc
    have hr : State.cmdReady { s with cmds := cs } = true := by simp [hf]
    rcases decodeCommand_cases c with ⟨ho, hd⟩ | ⟨ho, hd⟩ | ⟨ho, hd⟩ | ⟨ho, hd⟩ <;> rw [hd] at h <;> simp only [exec] at h
    · unfold execEncode at h
      rw [if_pos hr] at h
      split at h <;> cases h
    · unfold execDecode at h
      rw [if_pos hr] at h
      cases h
    · cases h; exact ⟨c, cs, hc, .inl ho, by rw [ho]⟩
    · cases h; exact ⟨c, cs, hc, .inr ho, by rw [ho]⟩

/-! ### Runs (spec R102, R103) -/

@[simp] theorem runFrom_zero (s : State) : runFrom 0 s = { last := s, faultMark := none, refusalMark := none } := rfl
@[simp] theorem runFrom_succ (k : Nat) (s : State) : runFrom (k + 1) s = (runFrom k s).advance := rfl

theorem advance_next {r : RunEnd} (h : step r.last = .next t) : r.advance = { r with last := t } := by
  simp [RunEnd.advance, h]

theorem advance_fault {r : RunEnd} {f : Fault} (h : step r.last = .fault f) :
    r.advance = { r with last := r.last.dropStopped, faultMark := r.faultMark.or (some f) } := by
  simp [RunEnd.advance, h]

theorem advance_refused {r : RunEnd} {f : Refusal} (h : step r.last = .refused f) :
    r.advance = { r with last := r.last.dropStopped, refusalMark := r.refusalMark.or (some f) } := by
  simp [RunEnd.advance, h]

/-- The last of `k + 1` steps of the machine. -/
theorem core_run_succ (k : Nat) (s : State) :
    core.run (k + 1) s =
      match core.run k s with
      | .next u => step u
      | .fault f => .fault f
      | .refused r => .refused r := by
  have hrun : ∀ n (u : State), core.run (n + 1) u =
      match step u with
      | .next v => core.run n v
      | .fault f => .fault f
      | .refused r => .refused r := by
    intro n u
    have hs : core.step u = step u := rfl
    cases h : step u <;> simp [Host.Core.run, hs, h]
  induction k generalizing s with
  | zero => rw [hrun]; cases h : step s <;> simp [Host.Core.run, h] <;> rfl
  | succ k ih => rw [hrun (k + 1), hrun k]; cases h : step s <;> simp [ih]

/-- What a stopped step leaves: the agenda's first move is over, and the command port gives up a refused command. Nothing
else changes (spec R83, R100; log 1). -/
theorem dropStopped_eq (s : State) :
    s.dropStopped = { s with agenda := s.agenda.tail, cmds := s.dropStopped.cmds } ∧
    (s.dropStopped.cmds = s.cmds ∨ s.fsm = .idle ∧ s.dropStopped.cmds = s.cmds.tail) := by
  cases s with
  | mk policy fsm work encStatus resStatus res cmds rx tx rxTaken tsDraws seen agenda =>
    cases agenda with
    | nil => by_cases hf : fsm = .idle <;> simp [State.dropStopped, State.dropRefused, hf]
    | cons m ms => cases m <;> by_cases hf : fsm = .idle <;> simp [State.dropStopped, State.dropRefused, hf]

/-! ### The unit and the agenda (log 5): the unit's step neither reads nor writes it -/

/-- An outcome with the agenda of its next state replaced. -/
def withAgenda (ms : List Move) : Result → Result
  | .next t => .next { t with agenda := ms }
  | .fault f => .fault f
  | .refused r => .refused r

@[simp] theorem withAgenda_next (ms : List Move) (t : State) : withAgenda ms (.next t) = .next { t with agenda := ms } := rfl
@[simp] theorem withAgenda_fault (ms : List Move) (f : Fault) : withAgenda ms (.fault f) = .fault f := rfl
@[simp] theorem withAgenda_refused (ms : List Move) (r : Refusal) : withAgenda ms (.refused r) = .refused r := rfl

theorem withWork_agenda (ms : List Move) (s : State) (k k' : Work → Result)
    (h : ∀ w, k' w = withAgenda ms (k w)) : withWork { s with agenda := ms } k' = withAgenda ms (withWork s k) := by
  unfold withWork
  cases s.work <;> simp [h]

theorem onStartByte_agenda (ms : List Move) (b : Byte) (w : Work) (s : State) :
    onStartByte b w { s with agenda := ms } = { onStartByte b w s with agenda := ms } := by
  unfold onStartByte; split <;> rfl

theorem onTypeByte_agenda (ms : List Move) (t : Byte) (w : Work) (s : State) :
    onTypeByte t w { s with agenda := ms } = { onTypeByte t w s with agenda := ms } := by
  by_cases h : s.policy = .reject ∧ dlcMax < (typeDlc t).toNat
  · unfold onTypeByte; rw [if_pos h, if_pos h]; rfl
  · unfold onTypeByte; rw [if_neg h, if_neg h]

theorem typeDispatch_agenda (ms : List Move) (t : Byte) (s : State) :
    typeDispatch t { s with agenda := ms } = withAgenda ms (typeDispatch t s) := by
  by_cases h : s.fsm = .dType
  · unfold typeDispatch; rw [if_pos h, if_pos h]
    exact withWork_agenda ms s _ _ fun w => congrArg Host.Outcome.next (onTypeByte_agenda ms t w s)
  · unfold typeDispatch; rw [if_neg h, if_neg h]; rfl

theorem onIdByte_agenda (ms : List Move) (b : Byte) (w : Work) (s : State) :
    onIdByte b w { s with agenda := ms } = { onIdByte b w s with agenda := ms } := by
  unfold onIdByte; split <;> rfl

theorem onDataByte_agenda (ms : List Move) (b : Byte) (w : Work) (s : State) :
    onDataByte b w { s with agenda := ms } = { onDataByte b w s with agenda := ms } := by
  unfold onDataByte; split <;> rfl

theorem onEndByte_agenda (ms : List Move) (b : Byte) (w : Work) (s : State) :
    onEndByte b w { s with agenda := ms } = { onEndByte b w s with agenda := ms } := by
  unfold onEndByte; split <;> rfl

theorem commandStep_agenda (ms : List Move) (s : State) :
    commandStep { s with agenda := ms } = withAgenda ms (commandStep s) := by
  obtain ⟨policy, fsm, work, encStatus, resStatus, res, cmds, rx, tx, rxTaken, tsDraws, seen, agenda⟩ := s
  cases cmds with
  | nil => rfl
  | cons c cs =>
    rcases decodeCommand_cases c with ⟨_, hd⟩ | ⟨_, hd⟩ | ⟨_, hd⟩ | ⟨_, hd⟩ <;> simp only [commandStep, hd, exec]
    · by_cases hr : fsm = .idle <;> by_cases hx : (encCheck c.id c.ext c.dlc c.plen).any = true <;>
        simp [execEncode, State.cmdReady, hr, hx, State.encReject, State.encAccept, State.txAppend]
    · by_cases hr : fsm = .idle <;> simp [execDecode, State.cmdReady, hr]
    · rfl
    · rfl

theorem onEvent_agenda (ms : List Move) (ev : RxEvent) (s : State) :
    onEvent ev { s with agenda := ms } = withAgenda ms (onEvent ev s) := by
  obtain ⟨policy, fsm, work, encStatus, resStatus, res, cmds, rx, tx, rxTaken, tsDraws, seen, agenda⟩ := s
  cases ev with
  | timeout => cases work <;> rfl
  | fault => cases work <;> rfl
  | byte b =>
    cases fsm with
    | idle => rfl
    | dStart => exact withWork_agenda ms _ _ _ fun w => congrArg Host.Outcome.next (onStartByte_agenda ms b w _)
    | dType =>
      simp only [onEvent, onByte, exec_decodeTypeByte]
      exact typeDispatch_agenda ms b ⟨policy, .dType, work, encStatus, resStatus, res, cmds, rx, tx, rxTaken, tsDraws, seen, agenda⟩
    | dId => exact withWork_agenda ms _ _ _ fun w => congrArg Host.Outcome.next (onIdByte_agenda ms b w _)
    | dData => exact withWork_agenda ms _ _ _ fun w => congrArg Host.Outcome.next (onDataByte_agenda ms b w _)
    | dEnd => exact withWork_agenda ms _ _ _ fun w => congrArg Host.Outcome.next (onEndByte_agenda ms b w _)

theorem decoderStep_agenda (ms : List Move) (s : State) :
    decoderStep { s with agenda := ms } = withAgenda ms (decoderStep s) := by
  obtain ⟨policy, fsm, work, encStatus, resStatus, res, cmds, rx, tx, rxTaken, tsDraws, seen, agenda⟩ := s
  cases rx with
  | nil => rfl
  | cons ev es => exact onEvent_agenda ms ev (State.rxTake _ es)

theorem unitStep_agenda (ms : List Move) (s : State) :
    unitStep { s with agenda := ms } = withAgenda ms (unitStep s) := by
  unfold unitStep
  by_cases h : s.cmdReady = true
  · rw [if_pos h, if_pos (by simpa [State.cmdReady] using h)]; exact commandStep_agenda ms s
  · rw [if_neg h, if_neg (by simpa [State.cmdReady] using h)]; exact decoderStep_agenda ms s

theorem hostValue_agenda (ms : List Move) (r : HostReg) (s : State) :
    State.hostValue { s with agenda := ms } r = s.hostValue r := by
  cases r <;> rfl

/-- A step takes the first move; those behind it only stay (log 5). -/
theorem step_agenda (m : Move) (ms : List Move) (s : State) :
    step { s with agenda := m :: ms } = withAgenda ms (step { s with agenda := [m] }) := by
  cases m with
  | unit =>
    change unitStep { s with agenda := ms } = withAgenda ms (unitStep { s with agenda := [] })
    rw [unitStep_agenda ms s, unitStep_agenda [] s]
    cases unitStep s <;> rfl
  | read r =>
    change hostRead r { s with agenda := ms } = withAgenda ms (hostRead r { s with agenda := [] })
    unfold hostRead
    rw [hostValue_agenda ms, hostValue_agenda []]
    cases s.hostValue r <;> rfl
  | deliver e => rfl
  | issue c => rfl
  | reset => rfl

/-! ### Runs without end (spec R53; log 25) -/

@[simp] theorem runUnder_zero (moves : Schedule) (s : State) :
    runUnder moves 0 s = { last := { s with agenda := [] }, faultMark := none, refusalMark := none } := rfl
@[simp] theorem runUnder_succ (moves : Schedule) (k : Nat) (s : State) :
    runUnder moves (k + 1) s = (runUnder moves k s).advanceBy (moves k) := rfl

@[simp] theorem delivered_zero (moves : Schedule) : delivered moves 0 = [] := rfl
theorem delivered_succ (moves : Schedule) (k : Nat) :
    delivered moves (k + 1) = delivered moves k ++ (moves k).event?.toList := by
  unfold delivered
  rw [List.range_succ, List.filterMap_append]
  cases h : (moves k).event? <;> simp [h]

@[simp] theorem streamed_even (src : Nat → RxEvent) (i : Nat) : streamed src (2 * i) = .deliver (src i) := by
  simp [streamed]

@[simp] theorem streamed_odd (src : Nat → RxEvent) (i : Nat) : streamed src (2 * i + 1) = .unit := by
  simp [streamed, Nat.add_mod]

/-- The first `k` moves decide the first `k` moves' run. -/
theorem runUnder_congr {moves moves' : Schedule} (k : Nat) (h : ∀ i, i < k → moves i = moves' i) (s : State) :
    runUnder moves k s = runUnder moves' k s := by
  induction k with
  | zero => rfl
  | succ k ih => rw [runUnder_succ, runUnder_succ, ih fun i hi => h i (by omega), h k (by omega)]

end Sys2Proof.Machine
end

