-- ==== Sys2Proof/Tests/Slice0.lean ====
section
/-! SUPPORT. The model's own tests: words and vectors of the spec, the well-formedness checks, and for every statement
with hypotheses a witness that meets them. Expected values are the spec's (95_test_vectors.md, or the rule named). -/

namespace Sys2Proof.Tests

open Sys2Proof Sys2Proof.Machine

/-! ### Helpers -/

/-- Something of the next state, when the outcome is one. -/
def after {α : Type} (o : Result) (f : State → α) : Option α :=
  match o with
  | .next t => some (f t)
  | .fault _ => none
  | .refused _ => none

/-- IDLE after reset with the given commands and RX events. -/
def idleWith (cmds : List Command) (rx : List RxEvent) : State := { State.reset with cmds := cmds, rx := rx }

/-- A decoder state with the given working registers and RX events. -/
def inState (f : Fsm) (w : Work) (rx : List RxEvent) : State := { State.reset with fsm := f, work := some w, rx := rx }

/-- Working registers with the type byte, field index and byte count given. -/
def workAt (t : Byte) (cnt : BitVec 4) (nb : BitVec 5) : Work := { clearedWork with wType := t, wCnt := cnt, wNb := nb }

/-- The RX events of a byte sequence. -/
def bytes (l : List Byte) : List RxEvent := l.map .byte

/-- An ENCODE record. -/
def encCommand (id : BitVec 32) (ext rtr : Bool) (dlc plen : BitVec 4) (p : List Byte) : Command :=
  { op := 0b01#2, id := id, ext := ext, rtr := rtr, dlc := dlc, plen := plen, pdata := pdataField p }

/-- The frame registers after V-D13, or after a frame of dlc 9 with a wide id. -/
def regsOf (t : Byte) (id : BitVec 32) : FrameRegs :=
  capture { clearedWork with wType := t, wId := id } (Config.tsSample 0)

/-- IDLE with a frame accepted: RES_STATUS as given. -/
def holding (status : BitVec 16) (t : Byte) (id : BitVec 32) : State :=
  { State.reset with resStatus := status, res := some (regsOf t id) }

/-- Eight payload fields. -/
def p8 : List Byte := [0x11#8, 0x22#8, 0#8, 0#8, 0#8, 0#8, 0#8, 0#8]

/-! ### Well-formedness: an ill-formed term for each check -/

theorem test_wf_refuses_seven_payload_fields :
    (Instr.encode 0x123#32 false false 2#4 2#4 (p8.take 7)).wf = false := by decide

/-- A valid CAN frame, S1 of 95_test_vectors.md. -/
def frameS1 : CanFrame :=
  { id := 0x123#32, ext := false, rtr := false, dlc := 2#4, payload := [0x11#8, 0x22#8], timestamp := Config.tsSample 0 }

theorem test_frame_wf_accepts_S1 : frameS1.wf = true := by decide
theorem test_frame_wf_refuses_dlc_nine :
    { frameS1 with dlc := 9#4, payload := List.replicate 9 0#8 }.wf = false := by decide
theorem test_frame_wf_refuses_wrong_length : { frameS1 with payload := [] }.wf = false := by decide
theorem test_frame_wf_refuses_wide_std_id : { frameS1 with id := 0x800#32 }.wf = false := by decide
theorem test_frame_wf_refuses_wide_ext_id : { frameS1 with ext := true, id := 0x20000000#32 }.wf = false := by decide

/-! ### Decoding: a word of every row, bit by bit from spec R75, R80, R86 and section 2.3 of 95_test_vectors.md -/

theorem test_decode_wire_std_data : decodeTypeByte 0b11000010#8 = .wireStdData 0b11#2 2#4 := by decide
theorem test_decode_wire_std_remote : decodeTypeByte 0b01010101#8 = .wireStdRemote 0b01#2 5#4 := by decide
theorem test_decode_wire_ext_data : decodeTypeByte 0b10101010#8 = .wireExtData 0b10#2 10#4 := by decide
theorem test_decode_wire_ext_remote : decodeTypeByte 0b00111111#8 = .wireExtRemote 0b00#2 15#4 := by decide
theorem test_decode_encode_command :
    decodeCommand (encCommand 0x1ABCDE#32 true false 2#4 3#4 p8) = .encode 0x1ABCDE#32 true false 2#4 3#4 p8 := by decide
theorem test_decode_decode_command : decodeCommand { encCommand 7#32 true true 1#4 1#4 p8 with op := 0b10#2 } = .decode := by
  decide
theorem test_decode_reserved_commands :
    decodeCommand (bareCommand 0b00#2) = .reservedCmd00 ∧ decodeCommand (bareCommand 0b11#2) = .reservedCmd11 := by decide
theorem test_table_words :
    decodeTableWord 2 0 = some .reservedCmd00 ∧ decodeTableWord 8 2 = some .decode ∧
    decodeTableWord 8 3 = some .reservedCmd11 ∧ decodeTableWord 8 0x10 = some (.wireStdRemote 0#2 0#4) ∧
    decodeTableWord 8 0x100 = none := by decide

/-! ### ENCODE: V-E5 (longest frame), V-X6 (every flag) -/

theorem test_encode_longest_frame :
    (after (exec (.encode 0x1FFFFFFF#32 true true 8#4 8#4
        [0xAA#8, 0x55#8, 0#8, 0xFF#8, 1#8, 2#8, 3#8, 4#8]) State.reset) fun t => (t.tx, t.encStatus)) =
      some ([0xAA#8, 0xF8#8, 0xFF#8, 0xFF#8, 0xFF#8, 0x1F#8, 0xAA#8, 0x55#8, 0#8, 0xFF#8, 1#8, 2#8, 3#8, 4#8, 0x55#8],
        0x0F01#16) := by decide
theorem test_encode_all_flags :
    (after (exec (.encode 0xFFFF#32 false false 15#4 0#4 p8) State.reset) fun t => (t.tx, t.encStatus)) =
      some ([], 0x001E#16) := by decide

/-! ### DECODE and the wire types -/

theorem test_decode_starts : (after (exec .decode State.reset) fun t => (t.fsm, t.work)) = some (.dStart, some clearedWork) := by
  decide
/-- V-D22: std, dlc 15, PASS. -/
theorem test_std_frame_dlc_fifteen :
    ((runFrom 21 (idleWith [bareCommand 0b10#2] (bytes [0xAA#8, 0xCF#8, 0x01#8, 0x02#8, 0x10#8, 0x11#8, 0x12#8, 0x13#8, 0x14#8,
        0x15#8, 0x16#8, 0x17#8, 0x18#8, 0x19#8, 0x1A#8, 0x1B#8, 0x1C#8, 0x1D#8, 0x1E#8, 0x55#8]))).last.resStatus) =
      0x34C1#16 := by decide
/-- V-D13: the fields of the frame. -/
theorem test_std_frame_fields :
    ((runFrom 8 (idleWith [bareCommand 0b10#2] (bytes [0xAA#8, 0xC2#8, 0x23#8, 0x01#8, 0x11#8, 0x22#8, 0x55#8]))).last.res.map
      fun r => (r.resId, r.resType, r.frame.payload)) = some (0x123#32, 0xC2#8, [0x11#8, 0x22#8]) := by decide
/-- The last byte of V-D18 (ext, id 0xFFFFFFFF): ID_WIDE. -/
theorem test_ext_frame_wide_id :
    (after (step (inState .dEnd { workAt 0xE0#8 0#4 6#5 with wId := 0xFFFFFFFF#32 } [.byte 0x55#8])) fun t => t.resStatus) =
      some 0x47C1#16 := by decide
/-- V-D7: a Fault after the third of four id bytes. -/
theorem test_short_id_read :
    ((runFrom 7 (idleWith [bareCommand 0b10#2]
      (bytes [0xAA#8, 0xE0#8, 0xDE#8, 0xBC#8, 0x1A#8] ++ [.fault]))).last.resStatus) = 0x0525#16 := by decide
/-- V-D21: REJECT. -/
theorem test_reject_dlc_nine :
    (after (exec (.wireStdData 0b11#2 9#4) { inState .dType (workAt 0#8 0#4 1#5) [] with policy := .reject })
      fun t => (t.resStatus, t.fsm)) = some (0x0216#16, .idle) := by decide
/-- Spec R139, R146: a remote type byte opens the id field like a data one. -/
theorem test_std_remote_type :
    (after (exec (.wireStdRemote 0b11#2 3#4) (inState .dType (workAt 0#8 0#4 1#5) [])) fun t => (t.fsm, t.work)) =
      some (.dId, some (workAt 0xD3#8 0#4 2#5)) := by decide
theorem test_ext_data_type :
    (after (exec (.wireExtData 0b11#2 0#4) (inState .dType (workAt 0#8 0#4 1#5) [])) fun t => (t.fsm, t.work)) =
      some (.dId, some (workAt 0xE0#8 0#4 2#5)) := by decide
theorem test_ext_remote_type :
    (after (exec (.wireExtRemote 0b00#2 15#4) (inState .dType (workAt 0#8 0#4 1#5) [])) fun t => (t.fsm, t.work)) =
      some (.dId, some (workAt 0x3F#8 0#4 2#5)) := by decide
/-- V-C3. -/
theorem test_reserved_refused :
    (runFrom 1 (idleWith [bareCommand 0b00#2] [])).refusalMark = some (.reservedCommand 0b00#2) ∧
    (runFrom 1 (idleWith [bareCommand 0b11#2] [])).refusalMark = some (.reservedCommand 0b11#2) := by decide
/-- Spec R102, R103: the run goes on past a refusal and a faulting read, ends with the last DECODE, and shows both marks;
a read left in the agenda does not keep it open, a command still to be issued does. -/
theorem test_marked_run_ends :
    ((runFrom 4 { idleWith [bareCommand 0b00#2, bareCommand 0b10#2] [.timeout] with
      agenda := [.read .resId, .unit, .unit, .unit, .read .encStatus] }).ended,
      (runFrom 4 { idleWith [bareCommand 0b00#2, bareCommand 0b10#2] [.timeout] with
        agenda := [.read .resId, .unit, .unit, .unit, .read .encStatus] }).observe) =
      (true, { tx := [], rxTaken := 1, encStatus := 0x0000#16, resStatus := 0x0002#16, res := none,
               faultMark := some (.noValue .resId), refusalMark := some (.reservedCommand 0b00#2) }) ∧
    State.ended { State.reset with agenda := [.issue (bareCommand 0b10#2)] } = false := by decide
/-- V-C4: a read of RES_ID while RES_STATUS = 0x0103. -/
theorem test_read_without_value_faults :
    (runFrom 1 { State.reset with resStatus := 0x0103#16, agenda := [.read .resId] }).faultMark = some (.noValue .resId) := by
  decide
/-- The reset of program P6: the attempt is lost, the unread events stay. -/
theorem test_reset_mid_attempt :
    (after (step { inState .dId (workAt 0xC2#8 1#4 3#5) (bytes [0x01#8]) with agenda := [.reset], resStatus := 0x0103#16 })
      fun t => (t.fsm, t.resStatus, t.rx)) = some (.idle, 0#16, bytes [0x01#8]) := by decide

/-! ### Witnesses: for each statement with hypotheses, states and operands that meet them -/

theorem witness_CommandStepDispatchesOnCmdOp (op : BitVec 2) :
    ∃ (s : State) (c : Command) (cs : List Command), s.agenda = [] ∧ s.fsm = .idle ∧ s.cmds = c :: cs ∧ c.op = op :=
  ⟨idleWith [bareCommand op] [], bareCommand op, [], rfl, rfl, rfl, rfl⟩

theorem witness_TypeByteStepRunsTheDecodedWireType (t : Byte) :
    ∃ (s : State) (es : List RxEvent), s.agenda = [] ∧ s.fsm = .dType ∧ s.rx = .byte t :: es :=
  ⟨inState .dType (workAt 0#8 0#4 1#5) [.byte t], [], rfl, rfl, rfl⟩

/-- Any first move with moves behind it; and a unit move with moves behind it that goes on, faults, and refuses. -/
theorem witness_AgendaSaysWhoMovesNext (m : Move) (ms : List Move) :
    (∃ s : State, s.agenda = m :: ms) ∧
    (∃ s t : State, s.agenda = .unit :: ms ∧ step { s with agenda := [] } = .next t ∧ t.fsm = .dType) ∧
    (∃ s : State, s.agenda = .unit :: ms ∧ step { s with agenda := [] } = .fault .workNoValue) ∧
    (∃ s : State, s.agenda = .unit :: ms ∧ step { s with agenda := [] } = .refused (.reservedCommand 0b11#2)) :=
  ⟨⟨{ State.reset with agenda := m :: ms }, rfl⟩,
    ⟨{ inState .dStart clearedWork [.byte 0xAA#8] with agenda := .unit :: ms }, _, rfl, rfl, rfl⟩,
    ⟨{ State.reset with fsm := .dId, rx := [.timeout], agenda := .unit :: ms }, rfl, rfl⟩,
    ⟨{ idleWith [bareCommand 0b11#2] [] with agenda := .unit :: ms }, rfl, rfl⟩⟩

theorem witness_PlacedWordRunsNext :
    decodeTableWord 2 0 = some .reservedCmd00 ∧ decodeTableWord 8 0 = some (.wireStdData 0#2 0#4) ∧
    decodeTableWord 8 2 = some .decode ∧ decodeTableWord 8 255 = some (.wireExtRemote 3#2 15#4) := by decide

theorem witness_SpecWordsDecode (op : BitVec 2) : ∃ c : Command, c.op = op := ⟨bareCommand op, rfl⟩

theorem witness_DecodeOfEncodeIsTheInstruction :
    (Instr.encode 0xFFFFFFFF#32 true true 15#4 15#4 p8).wf = true ∧ (Instr.wireExtRemote 3#2 15#4).wf = true ∧
    (encCommand 0#32 false false 0#4 0#4 p8).op = 0b01#2 := by decide

theorem witness_TypeBitsSevenSixSelectNothing :
    ∃ (s : State) (w : Work) (t t' : Byte) (es : List RxEvent), s.agenda = [] ∧ s.fsm = .dType ∧ s.work = some w ∧
      s.rx = .byte t :: es ∧ t &&& 0x3F#8 = t' &&& 0x3F#8 ∧ t ≠ t' :=
  ⟨inState .dType (workAt 0#8 0#4 1#5) [.byte 0xC2#8], workAt 0#8 0#4 1#5, 0xC2#8, 0x02#8, [], by decide⟩

theorem witness_IdBytesAreLittleEndian : ∃ id : BitVec 32, id.toNat < 2 ^ 16 ∧ id = 0xFFFF#32 := ⟨0xFFFF#32, by decide⟩

/-- The largest ids of both widths, dlc 8 and dlc 0. -/
theorem witness_EncodeAppendsTheWireFrame :
    (State.reset.fsm = .idle ∧ p8.length = 8 ∧ (8#4).toNat ≤ 8 ∧
      (false = false → (0x7FF#32).toNat < 0x800) ∧ (false = true → (0x7FF#32).toNat < 0x20000000)) ∧
    ((0#4).toNat ≤ 8 ∧ (true = false → (0x1FFFFFFF#32).toNat < 0x800) ∧
      (true = true → (0x1FFFFFFF#32).toNat < 0x20000000)) := by decide

/-- Each way to break a constraint, at its boundary. -/
theorem witness_EncodeRejectsEveryViolation :
    State.reset.fsm = .idle ∧ 8 < (9#4).toNat ∧ (3#4 : BitVec 4) ≠ 2#4 ∧ 0x800 ≤ (0x800#32).toNat ∧
    0x20000000 ≤ (0x20000000#32).toNat := by decide

theorem witness_EncodeIsAFunctionOfItsOperands :
    ∃ s1 s2 : State, s1.fsm = .idle ∧ s2.fsm = .idle ∧ s1.tx ≠ s2.tx :=
  ⟨State.reset, { State.reset with tx := [0#8] }, by decide⟩

theorem witness_RtrChangesOnlyBitFour : ∃ s : State, s.fsm = .idle := ⟨State.reset, rfl⟩

theorem witness_BusyUnitAcceptsNoCommand :
    ∃ s t : State, s.fsm ≠ .idle ∧ s.agenda = [] ∧ s.cmds ≠ [] ∧ step s = .next t :=
  ⟨{ inState .dStart clearedWork [.timeout] with cmds := [bareCommand 0b10#2] }, _, by decide, rfl, by decide, rfl⟩

theorem witness_ReservedCommandsAreRefused :
    ∃ (s : State) (c : Command) (cs : List Command), s.agenda = [] ∧ s.fsm = .idle ∧ s.cmds = c :: cs ∧
      (c.op = 0b00#2 ∨ c.op = 0b11#2) :=
  ⟨idleWith [bareCommand 0b11#2] [], bareCommand 0b11#2, [], by decide⟩

theorem witness_DecodeAcceptanceStartsFresh : ∃ s : State, s.fsm = .idle := ⟨State.reset, rfl⟩

theorem witness_StartStateRule (b : Byte) :
    ∃ (s : State) (w : Work) (es : List RxEvent), s.agenda = [] ∧ s.fsm = .dStart ∧ s.work = some w ∧ s.rx = .byte b :: es :=
  ⟨inState .dStart clearedWork [.byte b], clearedWork, [], rfl, rfl, rfl, rfl⟩

/-- PASS with the largest dlc; REJECT with 8 and with 9. -/
theorem witness_TypeByteRule (p : DlcPolicy) :
    (∃ (s : State) (w : Work), s.fsm = .dType ∧ s.work = some w ∧ s.policy = p) ∧
    (DlcPolicy.pass = .pass ∨ (15#4).toNat ≤ 8) ∧ (DlcPolicy.reject = .pass ∨ (8#4).toNat ≤ 8) ∧ 8 < (9#4).toNat :=
  ⟨⟨{ inState .dType (workAt 0#8 0#4 1#5) [] with policy := p }, workAt 0#8 0#4 1#5, rfl, rfl, rfl⟩, by decide⟩

theorem witness_TypeByteStopsOutsideItsState :
    (∃ s : State, s.fsm ≠ .dType) ∧ (∃ s : State, s.fsm = .dType ∧ s.work = none) :=
  ⟨⟨State.reset, by decide⟩, ⟨{ State.reset with fsm := .dType }, by decide⟩⟩

/-- The last and an earlier byte of the field, of both widths; and both whole fields. -/
theorem witness_IdStateRule :
    (∃ (s : State) (w : Work) (b : Byte), s.agenda = [] ∧ s.fsm = .dId ∧ s.work = some w ∧ s.rx = [.byte b] ∧
      w.wCnt.toNat + 1 = (if w.wType.getLsbD 5 then 4 else 2)) ∧
    (∃ (s : State) (w : Work) (b : Byte), s.agenda = [] ∧ s.fsm = .dId ∧ s.work = some w ∧ s.rx = [.byte b] ∧
      w.wCnt.toNat + 1 ≠ (if w.wType.getLsbD 5 then 4 else 2)) ∧
    (∃ (s : State) (w : Work) (b0 b1 : Byte), s.agenda = [] ∧ s.fsm = .dId ∧ s.work = some w ∧ w.wId = 0#32 ∧
      w.wCnt = 0#4 ∧ w.wType.getLsbD 5 = false ∧ s.rx = [.byte b0, .byte b1]) ∧
    (∃ (s : State) (w : Work) (b0 b1 b2 b3 : Byte), s.agenda = [] ∧ s.fsm = .dId ∧ s.work = some w ∧ w.wId = 0#32 ∧
      w.wCnt = 0#4 ∧ w.wType.getLsbD 5 = true ∧ s.rx = [.byte b0, .byte b1, .byte b2, .byte b3]) :=
  ⟨⟨inState .dId (workAt 0xE0#8 3#4 5#5) [.byte 0#8], workAt 0xE0#8 3#4 5#5, 0#8, by decide⟩,
    ⟨inState .dId (workAt 0xE0#8 2#4 4#5) [.byte 0#8], workAt 0xE0#8 2#4 4#5, 0#8, by decide⟩,
    ⟨inState .dId (workAt 0xC2#8 0#4 2#5) (bytes [0x23#8, 0x01#8]), workAt 0xC2#8 0#4 2#5, 0x23#8, 0x01#8, by decide⟩,
    ⟨inState .dId (workAt 0xE0#8 0#4 2#5) (bytes [0xDE#8, 0xBC#8, 0x1A#8, 0#8]), workAt 0xE0#8 0#4 2#5, 0xDE#8, 0xBC#8, 0x1A#8,
      0#8, by decide⟩⟩

/-- The last byte of the longest payload and an earlier one; and a step of an invariant state into D_DATA. -/
theorem witness_DataStateRule :
    (∃ (s : State) (w : Work) (b : Byte), s.agenda = [] ∧ s.fsm = .dData ∧ s.work = some w ∧ s.rx = [.byte b] ∧
      w.wCnt.toNat + 1 = (w.wType &&& 0x0F#8).toNat) ∧
    (∃ (s : State) (w : Work) (b : Byte), s.agenda = [] ∧ s.fsm = .dData ∧ s.work = some w ∧ s.rx = [.byte b] ∧
      w.wCnt.toNat + 1 ≠ (w.wType &&& 0x0F#8).toNat) ∧
    (∃ s t : State, s.inv = true ∧ step s = .next t ∧ t.fsm = .dData) :=
  ⟨⟨inState .dData (workAt 0xCF#8 14#4 18#5) [.byte 0#8], workAt 0xCF#8 14#4 18#5, 0#8, by decide⟩,
    ⟨inState .dData (workAt 0xCF#8 13#4 17#5) [.byte 0#8], workAt 0xCF#8 13#4 17#5, 0#8, by decide⟩,
    ⟨inState .dId (workAt 0xC2#8 1#4 3#5) [.byte 0#8], _, by decide, rfl, rfl⟩⟩

theorem witness_EndStateRule (b : Byte) :
    ∃ (s : State) (w : Work), s.agenda = [] ∧ s.fsm = .dEnd ∧ s.work = some w ∧ s.rx = [.byte b] :=
  ⟨inState .dEnd (workAt 0xC0#8 0#4 4#5) [.byte b], workAt 0xC0#8 0#4 4#5, rfl, rfl, rfl, rfl⟩

theorem witness_TimeoutAndFaultEndTheAttempt (f : Fsm) (ev : RxEvent) :
    ∃ (s : State) (w : Work), s.agenda = [] ∧ s.work = some w ∧ s.fsm = f ∧ s.rx = [ev] :=
  ⟨inState f clearedWork [ev], clearedWork, rfl, rfl, rfl, rfl⟩

theorem witness_DecoderStepConsumesExactlyOneEvent (ev : RxEvent) :
    ∃ s : State, s.inv = true ∧ s.agenda = [] ∧ s.fsm ≠ .idle ∧ s.rx = [ev] :=
  ⟨inState .dEnd (workAt 0xC0#8 0#4 4#5) [ev], (by decide : (inState .dEnd (workAt 0xC0#8 0#4 4#5) []).inv = true), rfl, (by rintro ⟨⟩), rfl⟩

theorem witness_WaitHoldsAllState :
    (∃ s : State, s.agenda = [] ∧ s.inv = true ∧ s.fsm ≠ .idle ∧ s.rx = []) ∧
    (∃ s : State, s.agenda = [] ∧ s.fsm = .idle ∧ s.cmds = []) :=
  ⟨⟨inState .dStart clearedWork [], by decide⟩, ⟨State.reset, by decide⟩⟩

theorem witness_DecoderStepsComposeIntoTheAttempt (evs : List RxEvent) (p : DlcPolicy) :
    ∃ (s : State) (c : Command) (cs : List Command), s.agenda = [] ∧ s.fsm = .idle ∧ s.cmds = c :: cs ∧ c.op = 0b10#2 ∧
      s.rx = evs ∧ s.policy = p :=
  ⟨{ idleWith [bareCommand 0b10#2] evs with policy := p }, bareCommand 0b10#2, [], rfl, rfl, rfl, rfl, rfl, rfl⟩

/-- The longest attempts under both policies (spec R8, V-D23), and the shortest. -/
theorem witness_AttemptLengthBounds :
    (decodeAttempt .pass (bytes ([0xAA#8, 0xFF#8] ++ List.replicate 19 0#8 ++ [0x55#8]))).2 = 22 ∧
    (decodeAttempt .reject (bytes ([0xAA#8, 0xF8#8] ++ List.replicate 12 0#8 ++ [0x55#8]))).2 = 15 ∧
    decodeAttempt .pass [.timeout] = (.noFrame .timeout 0#3 0, 1) := by decide

theorem witness_DecodeCompletesWithinTwentyThreeSteps :
    ∃ (s : State) (c : Command) (cs : List Command), s.agenda = [] ∧ s.fsm = .idle ∧ s.cmds = c :: cs ∧ c.op = 0b10#2 ∧
      22 ≤ s.rx.length :=
  ⟨idleWith [bareCommand 0b10#2] (List.replicate 22 .timeout), bareCommand 0b10#2, [], by decide⟩

/-- Every row of spec R147's table, at a boundary. -/
theorem witness_AttemptAccounting :
    decodeAttempt .pass (bytes [0xAA#8, 0xAA#8, 0xAA#8, 0xAA#8, 0x55#8]) = (.wait, 5) ∧
    decodeAttempt .pass [.fault] = (.noFrame .transport 0#3 0, 1) ∧
    decodeAttempt .pass (bytes [0xAA#8] ++ [.timeout]) = (.noFrame .timeout 1#3 1, 2) ∧
    decodeAttempt .pass (bytes [0x55#8]) = (.noFrame .badStart 0#3 1, 1) ∧
    decodeAttempt .reject (bytes [0xAA#8, 0xC9#8]) = (.noFrame .dlcRange 1#3 2, 2) ∧
    decodeAttempt .pass (bytes [0xAA#8, 0xC2#8, 0x23#8] ++ [.timeout]) = (.noFrame .timeout 2#3 3, 4) ∧
    decodeAttempt .pass (bytes [0xAA#8, 0xC2#8, 0x23#8, 0x01#8, 0x11#8] ++ [.timeout]) = (.noFrame .timeout 3#3 5, 6) ∧
    decodeAttempt .pass (bytes [0xAA#8, 0xC2#8, 0x23#8, 0x01#8, 0x11#8, 0x22#8] ++ [.timeout]) = (.noFrame .timeout 4#3 6, 7) ∧
    decodeAttempt .pass (bytes [0xAA#8, 0xC2#8, 0x23#8, 0x01#8, 0x11#8, 0x22#8, 0xAA#8]) = (.noFrame .badEnd 4#3 7, 7) ∧
    decodeAttempt .pass (bytes [0xAA#8, 0xC0#8, 0#8, 0#8, 0x55#8]) = (.frame 0#32 false false 0#4 [] 0xC0#8 5, 5) := by decide

/-- Two machines that differ in everything an attempt may not depend on. -/
theorem witness_AttemptsCarryNothingOver :
    ∃ (s1 s2 : State) (c1 c2 : Command), s1.agenda = [] ∧ s2.agenda = [] ∧ s1.fsm = .idle ∧ s2.fsm = .idle ∧
      s1.cmds = [c1] ∧ s2.cmds = [c2] ∧ c1.op = 0b10#2 ∧ c2.op = 0b10#2 ∧ s1.policy = s2.policy ∧ s1.rx = s2.rx ∧
      s1.work ≠ s2.work ∧ s1.resStatus ≠ s2.resStatus ∧ s1.tx ≠ s2.tx :=
  ⟨idleWith [bareCommand 0b10#2] [.timeout],
    { idleWith [{ bareCommand 0b10#2 with id := 1#32 }] [.timeout] with
      work := some (workAt 0xFF#8 1#4 1#5), resStatus := 0x0103#16, tx := [0#8] },
    bareCommand 0b10#2, { bareCommand 0b10#2 with id := 1#32 }, by decide⟩

theorem witness_GarbageCostsOneDecodePerByte :
    ∃ (s : State) (garbage : List Byte) (ds cs : List Command) (es : List RxEvent), s.agenda = [] ∧ s.fsm = .idle ∧
      (∀ b ∈ garbage, b ≠ 0xAA#8) ∧ (∀ d ∈ ds, d.op = 0b10#2) ∧ ds.length = garbage.length ∧ s.cmds = ds ++ cs ∧
      s.rx = garbage.map .byte ++ es ∧ garbage ≠ [] :=
  ⟨idleWith [bareCommand 0b10#2, bareCommand 0b10#2] (bytes [0x00#8, 0xFF#8, 0xAA#8]), [0x00#8, 0xFF#8],
    [bareCommand 0b10#2, bareCommand 0b10#2], [], [.byte 0xAA#8], by decide⟩

/-- A frame at the limits: extended, largest id, eight payload bytes, sentinel values among them. -/
theorem witness_EncodedFrameDecodesToItself :
    State.reset.agenda = [] ∧ State.reset.fsm = .idle ∧
    { frameS1 with
      ext := true, rtr := true, id := 0x1FFFFFFF#32, dlc := 8#4,
      payload := [0xAA#8, 0x55#8, 0#8, 0xFF#8, 1#8, 2#8, 3#8, 4#8] }.wf = true := by decide

/-- A read of any register, with no frame held and with one; RES_DATA below and at RES_DLC; and a decoder state whose
working registers have no value. -/
theorem witness_ReadsFaultExactlyWithoutValue (r : HostReg) :
    (∃ s : State, s.inv = true ∧ s.agenda = [.read r] ∧ s.resStatus.getLsbD 7 = false) ∧
    (∃ (s : State) (f : FrameRegs), s.inv = true ∧ s.agenda = [.read r] ∧ s.resStatus.getLsbD 7 = true ∧ s.res = some f ∧
      1 < f.resDlc.toNat ∧ f.resDlc.toNat ≤ 2) ∧
    (∃ s : State, s.agenda = [] ∧ s.fsm ≠ .idle ∧ s.work = none ∧ s.rx = [.timeout]) :=
  ⟨⟨{ State.reset with agenda := [.read r] }, (by decide : State.reset.inv = true), rfl,
      (by decide : (0#16).getLsbD 7 = false)⟩,
    ⟨{ holding 0x07C1#16 0xC2#8 0x123#32 with agenda := [.read r] }, regsOf 0xC2#8 0x123#32,
      (by decide : (holding 0x07C1#16 0xC2#8 0x123#32).inv = true), rfl, (by decide : (0x07C1#16).getLsbD 7 = true), rfl,
      by decide, by decide⟩,
    ⟨{ State.reset with fsm := .dStart, rx := [.timeout] }, by decide⟩⟩

theorem witness_ResetStepTouchesOnlyTheCodec : ∃ (s : State) (ms : List Move), s.agenda = .reset :: ms ∧ s.fsm ≠ .idle :=
  ⟨{ inState .dId (workAt 0xC2#8 1#4 3#5) [] with agenda := [.reset] }, [], by decide⟩

theorem witness_EveryStepKeepsTheInvariant : ∃ s t : State, s.inv = true ∧ step s = .next t ∧ s.fsm = .dEnd ∧ t.res ≠ none :=
  ⟨inState .dEnd (workAt 0xCF#8 0#4 19#5) [.byte 0x55#8], _, by decide, rfl, rfl, by decide⟩

/-- No frame, a frame without flags, and one with both. -/
theorem witness_FlagsTellValidFrames :
    State.reset.inv = true ∧ (holding 0x07C1#16 0xC2#8 0x123#32).inv = true ∧
    (holding 0x6EC1#16 0xC9#8 0x800#32).inv = true := by decide

/-- The end of an attempt, and a reset step. -/
theorem witness_ResultsChangeOnlyWhenAnAttemptEnds :
    (∃ s t : State, step s = .next t ∧ t.resStatus ≠ s.resStatus) ∧
    (∃ s t : State, step s = .next t ∧ t.res ≠ s.res ∧ s.agenda = [.reset]) :=
  ⟨⟨inState .dStart clearedWork [.timeout], _, rfl, by decide⟩,
    ⟨{ holding 0x07C1#16 0xC2#8 0x123#32 with agenda := [.reset] }, _, rfl, by simp [holding, State.resetUnit], rfl⟩⟩

/-- An accepted ENCODE, and a reset step. -/
theorem witness_OnlyEncodeTouchesTxAndItsStatus :
    (∃ s t : State, step s = .next t ∧ t.tx ≠ s.tx) ∧
    (∃ s t : State, step s = .next t ∧ t.encStatus ≠ s.encStatus ∧ s.agenda = [.reset]) :=
  ⟨⟨idleWith [encCommand 0x123#32 false false 2#4 2#4 p8] [], _, rfl, by decide⟩,
    ⟨{ State.reset with encStatus := 0x0701#16, agenda := [.reset] }, _, rfl, by decide, rfl⟩⟩

theorem witness_RxEventsAreConsumedInOrderOnce :
    (∃ s t : State, step s = .next t ∧ s.rx = [.byte 0xAA#8] ∧ t.rx = []) ∧
    (∃ s t : State, step s = .next t ∧ s.rx = [] ∧ t.rx = [.timeout]) :=
  ⟨⟨inState .dStart clearedWork [.byte 0xAA#8], _, rfl, rfl, by decide⟩,
    ⟨{ State.reset with agenda := [.deliver .timeout] }, _, rfl, rfl, by decide⟩⟩

theorem witness_CommandsAreAcceptedInOrderOnlyInIdle :
    (∃ s t : State, step s = .next t ∧ s.cmds ≠ [] ∧ t.cmds = []) ∧
    (∃ s t : State, step s = .next t ∧ s.cmds = [] ∧ t.cmds ≠ []) :=
  ⟨⟨idleWith [bareCommand 0b10#2] [], _, rfl, by decide, by decide⟩,
    ⟨{ State.reset with agenda := [.issue (bareCommand 0b10#2)] }, _, rfl, rfl, by decide⟩⟩

/-- An accepting step, by an empty agenda and by a unit move; and a step that accepts nothing. -/
theorem witness_PolicyStaysAndTsIsDrawnOncePerFrame (es : List RxEvent) (ms : List Move) :
    (∃ s t : State, step s = .next t ∧ s.agenda = [] ∧ s.fsm = .dEnd ∧ s.rx = .byte 0x55#8 :: es) ∧
    (∃ s t : State, step s = .next t ∧ s.agenda = .unit :: ms ∧ s.fsm = .dEnd ∧ s.rx = .byte 0x55#8 :: es) ∧
    (∃ s t : State, step s = .next t ∧ s.fsm ≠ .dEnd) :=
  ⟨⟨inState .dEnd (workAt 0xC0#8 0#4 4#5) (.byte 0x55#8 :: es), _, rfl, rfl, rfl, rfl⟩,
    ⟨{ inState .dEnd (workAt 0xC0#8 0#4 4#5) (.byte 0x55#8 :: es) with agenda := .unit :: ms }, _, rfl, rfl, rfl, rfl⟩,
    ⟨State.reset, State.reset, rfl, by decide⟩⟩

/-- A reserved command; a read with no frame held; and a read of RES_DATA at RES_DLC (V-C5). -/
theorem witness_StepsStopOnlyWhereTheSpecSays :
    (∃ (s : State) (r : Refusal), step s = .refused r) ∧
    (∃ (s : State) (f : Fault), s.inv = true ∧ step s = .fault f ∧ s.resStatus.getLsbD 7 = false) ∧
    (∃ (s : State) (f : Fault), s.inv = true ∧ step s = .fault f ∧ s.resStatus.getLsbD 7 = true) :=
  ⟨⟨idleWith [bareCommand 0b00#2] [], _, rfl⟩,
    ⟨{ State.reset with agenda := [.read .resId] }, _, by decide, rfl, by decide⟩,
    ⟨{ holding 0x07C1#16 0xC2#8 0x123#32 with agenda := [.read (.resData 2)] }, .noValue (.resData 2), by decide, rfl, by decide⟩⟩

theorem witness_MarksAreNeverCleared :
    (runFrom 1 (idleWith [bareCommand 0b11#2] [])).refusalMark = some (.reservedCommand 0b11#2) ∧
    (runFrom 1 { State.reset with agenda := [.read .resTs] }).faultMark = some (.noValue .resTs) ∧
    (runFrom 1 State.reset).safe = true ∧ ∃ t, core.run 3 State.reset = .next t :=
  ⟨by decide, by decide, by decide, _, rfl⟩

/-- Five commands of every kind, the RX source holding exactly 22 events for each. -/
theorem witness_EveryFedRunEndsAndShowsItsMarks :
    ∃ s : State, s.agenda = [] ∧ s.fsm = .idle ∧ 22 * s.cmds.length = s.rx.length ∧ s.cmds.length = 5 :=
  ⟨idleWith [bareCommand 0b00#2, bareCommand 0b11#2, bareCommand 0b10#2, bareCommand 0b01#2, bareCommand 0b10#2]
    (List.replicate 110 .timeout), by decide⟩

/-- A schedule that delivers for ever, and one of every kind of move. -/
theorem witness_EveryEventSequenceIsAdmitted (src : Nat → RxEvent) :
    State.reset.agenda = [] ∧ State.reset.inv = true ∧ delivered (streamed src) 4 = [src 0, src 1] ∧
    (runUnder (fun k => if k = 0 then .deliver .timeout else if k = 1 then .issue (bareCommand 0b10#2) else if k = 4 then .read .resId
        else if k = 5 then .reset else .unit) 6 State.reset).observe =
      { tx := [], rxTaken := 1, encStatus := 0#16, resStatus := 0#16, res := none, faultMark := some (.noValue .resId),
        refusalMark := none } :=
  ⟨rfl, by decide, rfl, by decide⟩

/-- V-D13's bytes again and again for ever: the first seven are the frame. -/
theorem witness_InfiniteSourceFeedsTheAttempt :
    (idleWith [bareCommand 0b10#2] []).agenda = [] ∧ (bareCommand 0b10#2).op = 0b10#2 ∧
    (runUnder (streamed fun i => .byte ([0xAA#8, 0xC2#8, 0x23#8, 0x01#8, 0x11#8, 0x22#8, 0x55#8].getD (i % 7) 0#8)) 16
      (idleWith [bareCommand 0b10#2] [])).last.resStatus = 0x07C1#16 := by decide

end Sys2Proof.Tests
end

section
/-! SUPPORT. How many RX events a receive attempt consumes (spec R8). -/

namespace Sys2Proof.Machine

variable {stage : BitVec 3} {c : Cursor} {N : Nat}

/-- A stage reads at most one event of its own, and exactly one if the attempt has ended (spec R54, R137). -/
theorem nextByte_consumed {k : Byte → Cursor → AttemptResult × Nat} (hN : c.i + 1 ≤ N)
    (hk : ∀ b c', c'.i = c.i + 1 → (k b c').2 ∈ Set.Icc c'.i N) :
    (nextByte stage c k).2 ∈ Set.Icc c.i N ∧ ((nextByte stage c k).1 ≠ .wait → c.i < (nextByte stage c k).2) := by
  obtain ⟨evs, i, nb⟩ := c
  match evs with
  | [] => exact ⟨⟨le_rfl, Nat.le_of_succ_le hN⟩, fun hended => absurd rfl hended⟩
  | .timeout :: _ => exact ⟨⟨Nat.le_succ i, hN⟩, fun _ => Nat.lt_succ_self i⟩
  | .fault :: _ => exact ⟨⟨Nat.le_succ i, hN⟩, fun _ => Nat.lt_succ_self i⟩
  | .byte b :: es =>
    obtain ⟨hlo, hhi⟩ := hk b { evs := es, i := i + 1, nb := nb + 1 } rfl
    exact ⟨⟨Nat.le_of_succ_le hlo, hhi⟩, fun _ => hlo⟩

/-- A field of `n` bytes reads at most `n` events of its own (spec R54). -/
theorem nextBytes_consumed {n : Nat} {k : List Byte → Cursor → AttemptResult × Nat} (hN : c.i + n ≤ N)
    (hk : ∀ bs c', c'.i = c.i + n → (k bs c').2 ∈ Set.Icc c'.i N) :
    (nextBytes stage n c k).2 ∈ Set.Icc c.i N := by
  induction n generalizing c k with
  | zero => exact hk [] c rfl
  | succ n ih =>
    refine (nextByte_consumed (by omega) fun b c' hc' => ?_).1
    exact ih (by omega) fun bs c'' hc'' => hk (b :: bs) c'' (by omega)

theorem idWidth_le_four (ext : Bool) : idWidth ext ≤ 4 := by
  cases ext <;> decide

/-- Spec R8's sum for any bound `d` on the payload lengths the policy lets through: 1 start, 1 type, 4 id, `d` payload,
1 end. -/
theorem decodeAttempt_consumed {policy : DlcPolicy} {d : Nat} (evs : List RxEvent)
    (hd : ∀ t, ¬(policy = .reject ∧ dlcMax < (typeDlc t).toNat) → (typeDlc t).toNat ≤ d) :
    (decodeAttempt policy evs).2 ∈ Set.Icc 0 (1 + 1 + 4 + d + 1) ∧
    ((decodeAttempt policy evs).1 ≠ .wait → 0 < (decodeAttempt policy evs).2) := by
  -- D_START
  refine nextByte_consumed (c := ⟨evs, 0, 0⟩) (by dsimp only; omega) fun b c₁ h₁ => ?_
  dsimp only at h₁ ⊢
  split
  case isTrue => exact ⟨le_rfl, by omega⟩
  -- D_TYPE
  refine (nextByte_consumed (by omega) fun t c₂ h₂ => ?_).1
  split
  case isTrue => exact ⟨le_rfl, by dsimp only; omega⟩
  case isFalse hdlc =>
    have hw := idWidth_le_four (typeExt t)
    have ht := hd t hdlc
    -- D_ID, D_DATA, D_END
    refine nextBytes_consumed (by omega) fun idb c₃ h₃ => ?_
    refine nextBytes_consumed (by omega) fun data c₄ h₄ => ?_
    refine (nextByte_consumed (by omega) fun e c₅ h₅ => ?_).1
    split <;> exact ⟨le_rfl, by dsimp only; omega⟩

/-- Settles O26: R8's sum with a payload of at most 15 bytes under any policy, and at most 8 under REJECT. -/
theorem attemptLengthBounds : Obligations.AttemptLengthBounds := by
  intro policy evs
  have hany : ∀ t : Byte, (typeDlc t).toNat ≤ 15 := fun t => Nat.le_of_lt_succ (typeDlc t).isLt
  obtain ⟨⟨-, hmax⟩, hended⟩ := decodeAttempt_consumed (policy := policy) evs fun t _ => hany t
  refine ⟨hmax, fun hreject => ?_, hended⟩
  have hpassed : ∀ t, ¬(policy = .reject ∧ dlcMax < (typeDlc t).toNat) → (typeDlc t).toNat ≤ 8 :=
    fun t hdlc => Nat.le_of_not_lt fun hgt => hdlc ⟨hreject, hgt⟩
  exact (decodeAttempt_consumed evs hpassed).1.2

end Sys2Proof.Machine
end

section
/-! SUPPORT. Which reads have a value (spec R33, R37): of the result registers by the host, of the working registers by
the decoder. -/

namespace Sys2Proof.Machine

variable {s : State} {r : HostReg} {f : FrameRegs} {ms : List Move}

/-! ### The host's read -/

theorem step_read_of_value {v : Nat} (ha : s.agenda = .read r :: ms) (hv : s.hostValue r = some v) :
    step s = .next { s with agenda := ms, seen := s.seen ++ [(r, v)] } := by
  simp [step, nextMove, ha, move, hostRead, hostValue_agenda, hv]

theorem step_read_of_noValue (ha : s.agenda = .read r :: ms) (hv : s.hostValue r = none) :
    step s = .fault (.noValue r) := by
  simp [step, nextMove, ha, move, hostRead, hostValue_agenda, hv]

/-- Spec R23: CMD_READY read as a number. -/
theorem hostValue_cmdReady (s : State) : s.hostValue .cmdReady = some (if s.fsm = .idle then 1 else 0) := by
  by_cases hf : s.fsm = .idle <;> simp [State.hostValue, State.cmdReady, hf]

/-- Every register but CMD_READY and the status words is read off the frame held. -/
theorem hostValue_of_res_none (hr : r ∉ [HostReg.cmdReady, .encStatus, .resStatus]) (hres : s.res = none) :
    s.hostValue r = none := by
  cases r with
  | cmdReady | encStatus | resStatus => simp at hr
  | resId | resExt | resRtr | resDlc | resType | resData i | resTs => simp [State.hostValue, hres]

theorem hostValue_of_res_some (hr : r ∈ [HostReg.resId, .resExt, .resRtr, .resDlc, .resType, .resTs])
    (hres : s.res = some f) :
    ∃ v, s.hostValue r = some v ∧
      (r, v) ∈ [(HostReg.resId, f.resId.toNat), (.resExt, f.resExt.toNat), (.resRtr, f.resRtr.toNat),
        (.resDlc, f.resDlc.toNat), (.resType, f.resType.toNat), (.resTs, f.resTs.toNat)] := by
  cases r with
  | cmdReady | encStatus | resStatus | resData i => simp at hr
  | resId | resExt | resRtr | resDlc | resType | resTs => simp [State.hostValue, hres]

theorem hostValue_resData (i : Fin 15) (hres : s.res = some f) :
    s.hostValue (.resData i) = f.resData[i.val].map BitVec.toNat := by
  simp [State.hostValue, hres]

/-! ### What the invariant says of the result registers -/

theorem resultsOk_of_inv (hinv : s.inv = true) : resultsOk s.policy s.resStatus s.res = true := by
  simp only [State.inv, Bool.and_eq_true] at hinv
  obtain ⟨⟨-, hresults⟩, -⟩ := hinv
  exact hresults

/-- Spec R28, R33: VALID says whether the frame result registers have values. -/
theorem resValid_eq_isSome_of_inv (hinv : s.inv = true) : resValid s.resStatus = s.res.isSome := by
  have hresults := resultsOk_of_inv hinv
  cases hres : s.res with
  | none =>
    rw [hres] at hresults
    simp only [resultsOk, Bool.and_eq_true, Bool.not_eq_true'] at hresults
    obtain ⟨⟨⟨⟨-, hvalid⟩, -⟩, -⟩, -⟩ := hresults
    exact hvalid
  | some f =>
    rw [hres] at hresults
    simp only [resultsOk, Bool.and_eq_true, beq_iff_eq] at hresults
    obtain ⟨⟨⟨⟨⟨⟨hword, -⟩, -⟩, -⟩, -⟩, -⟩, -⟩ := hresults
    rw [hword, resValid_resStatusWord, Option.isSome_some]

/-- Spec R33: RES_DATA[i] has a value exactly while i < RES_DLC. -/
theorem resData_isSome_of_inv (hinv : s.inv = true) (hres : s.res = some f) (i : Fin 15) :
    f.resData[i.val].isSome = decide (i.val < f.resDlc.toNat) := by
  have hresults := resultsOk_of_inv hinv
  rw [hres] at hresults
  simp only [resultsOk, Bool.and_eq_true, List.all_eq_true, beq_iff_eq] at hresults
  obtain ⟨-, hdata⟩ := hresults
  exact hdata i (List.mem_finRange i)

/-! ### The decoder's read of the working registers -/

theorem withWork_none (hw : s.work = none) (k : Work → Result) : withWork s k = .fault .workNoValue := by
  simp [withWork, hw]

/-- Spec R37: whatever the event and the decoder state, the rule reads the working registers. -/
theorem onEvent_of_work_none (ev : RxEvent) (hf : s.fsm ≠ .idle) (hw : s.work = none) :
    onEvent ev s = .fault .workNoValue := by
  cases ev with
  | timeout | fault => exact withWork_none hw _
  | byte b =>
    cases hfsm : s.fsm with
    | idle => exact absurd hfsm hf
    | dType => simp [onEvent, onByte, typeDispatch, hfsm, withWork_none hw]
    | dStart | dId | dData | dEnd => simp [onEvent, onByte, hfsm, withWork_none hw]

theorem step_of_work_none {ev : RxEvent} {es : List RxEvent} (ha : s.agenda = []) (hf : s.fsm ≠ .idle)
    (hw : s.work = none) (hrx : s.rx = ev :: es) : step s = .fault .workNoValue := by
  have hstep : step s = onEvent ev (s.rxTake es) := by
    simp [step, nextMove, ha, unitStep, hf, decoderStep, hrx]
  rw [hstep]
  exact onEvent_of_work_none ev hf hw

/-- Settles O33: VALID says whether a frame is held, RES_DLC which bytes of it, and a read returns `hostValue`. -/
theorem readsFaultExactlyWithoutValue : Obligations.ReadsFaultExactlyWithoutValue := by
  refine ⟨fun s r ms hinv ha => ?_, fun s ev es ha hf hw hrx => step_of_work_none ha hf hw hrx⟩
  have hvalid : s.resStatus.getLsbD 7 = s.res.isSome := resValid_eq_isSome_of_inv hinv
  rw [hvalid, Option.isSome_eq_false_iff, Option.isNone_iff_eq_none, Option.isSome_iff_exists]
  refine ⟨?cmdReady, ?encStatus, ?resStatus, ?noFrame, ?frame, ?noFrameData, ?frameData⟩
  case cmdReady => rintro rfl; exact step_read_of_value ha (hostValue_cmdReady s)
  case encStatus => rintro rfl; exact step_read_of_value ha rfl
  case resStatus => rintro rfl; exact step_read_of_value ha rfl
  case noFrame =>
    intro hr hres
    have hstatus : r ∉ [HostReg.cmdReady, .encStatus, .resStatus] := List.disjoint_left.mp (by simp) hr
    exact step_read_of_noValue ha (hostValue_of_res_none hstatus hres)
  case frame =>
    rintro hr ⟨f, hres⟩
    obtain ⟨v, hv, hmem⟩ := hostValue_of_res_some hr hres
    exact ⟨f, v, hres, step_read_of_value ha hv, hmem⟩
  case noFrameData =>
    rintro i rfl hres
    exact step_read_of_noValue ha (hostValue_of_res_none (by simp) hres)
  case frameData =>
    rintro i rfl ⟨f, hres⟩
    have hsome := resData_isSome_of_inv hinv hres i
    have hread := hostValue_resData i hres
    refine ⟨f, hres, fun hge => ?_, fun hlt => ?_⟩
    · have hnone : f.resData[i.val] = none := by simpa [Nat.not_lt.mpr hge] using hsome
      exact step_read_of_noValue ha (by rw [hread, hnone, Option.map_none])
    · obtain ⟨b, hb⟩ : ∃ b, f.resData[i.val] = some b := by simpa [hlt, Option.isSome_iff_exists] using hsome
      exact ⟨b, hb, step_read_of_value ha (by rw [hread, hb, Option.map_some])⟩

end Sys2Proof.Machine
end

section
/-! SUPPORT. A reserved command in a run (spec R83, R102): the step it is refused in, and the mark that stays. -/

namespace Sys2Proof.Machine

variable {s : State} {c : Command} {cs : List Command}

/-! ### A mark stays (spec R102) -/

theorem advance_refusalMark {r : RunEnd} {f : Refusal} (h : r.refusalMark = some f) :
    r.advance.refusalMark = some f := by
  cases hs : step r.last with
  | next t => rw [advance_next hs]; exact h
  | fault g => rw [advance_fault hs]; exact h
  | refused g => rw [advance_refused hs, h, Option.some_or]

theorem runFrom_add_refusalMark {k : Nat} {f : Refusal} (h : (runFrom k s).refusalMark = some f) (j : Nat) :
    (runFrom (k + j) s).refusalMark = some f := by
  induction j with
  | zero => exact h
  | succ j ih => exact advance_refusalMark ih

/-! ### The refused command (spec R83, R97) -/

theorem exec_decodeCommand_of_reserved (ho : c.op = 0b00#2 ∨ c.op = 0b11#2) (s : State) :
    exec (decodeCommand c) s = .refused (.reservedCommand c.op) := by
  rcases ho with ho | ho
  · have hd : decodeCommand c = .reservedCmd00 := by simp [decodeCommand, ho, opEncode, opDecode]
    rw [hd, ho]; rfl
  · have hd : decodeCommand c = .reservedCmd11 := by simp [decodeCommand, ho, opEncode, opDecode]
    rw [hd, ho]; rfl

theorem step_of_command (ha : s.agenda = []) (hf : s.fsm = .idle) (hc : s.cmds = c :: cs) :
    step s = exec (decodeCommand c) { s with cmds := cs } := by
  simp [step, nextMove, ha, unitStep, hf, commandStep, hc]

/-- With an empty agenda the stopped move was the unit's, and in IDLE it gives up the oldest command (log 1). -/
theorem dropStopped_of_command (ha : s.agenda = []) (hf : s.fsm = .idle) (hc : s.cmds = c :: cs) :
    s.dropStopped = { s with cmds := cs } := by
  simp [State.dropStopped, ha, State.dropRefused, hf, hc]

theorem runFrom_one_of_reserved (ha : s.agenda = []) (hf : s.fsm = .idle) (hc : s.cmds = c :: cs)
    (ho : c.op = 0b00#2 ∨ c.op = 0b11#2) :
    runFrom 1 s =
      { last := { s with cmds := cs }, faultMark := none, refusalMark := some (.reservedCommand c.op) } := by
  have hstep : step (runFrom 0 s).last = .refused (.reservedCommand c.op) :=
    (step_of_command ha hf hc).trans (exec_decodeCommand_of_reserved ho _)
  rw [runFrom_succ, advance_refused hstep, runFrom_zero, dropStopped_of_command ha hf hc, Option.none_or]

/-- Settles O14: the first step records the refusal and takes the command off the port, and no later step clears the
mark. -/
theorem reservedCommandsAreRefused : Obligations.ReservedCommandsAreRefused := by
  refine fun s => ⟨rfl, rfl, fun c cs ha hf hc ho => ?_⟩
  have hrun := runFrom_one_of_reserved ha hf hc ho
  refine ⟨hrun, fun k => ?_⟩
  have hmark : (runFrom 1 s).refusalMark = some (.reservedCommand c.op) := by rw [hrun]
  rw [Nat.add_comm k 1]
  exact runFrom_add_refusalMark hmark k

end Sys2Proof.Machine
end

section
/-! SUPPORT. The dispatch on CMD_OP (spec R80, R97). -/

namespace Sys2Proof.Machine

variable {c : Command}

/-- CMD_OP 0b01 carries the record's fields as operands. -/
theorem decodeCommand_of_opEncode (ho : c.op = opEncode) :
    decodeCommand c = .encode c.id c.ext c.rtr c.dlc c.plen c.pdata.toList := by
  simp [decodeCommand, ho]

theorem decodeCommand_of_opDecode (ho : c.op = opDecode) : decodeCommand c = .decode := by
  simp [decodeCommand, ho, opDecode, opEncode]

/-- Settles O1: the step is `step_of_command`, and the decoding has one lemma per value of CMD_OP. -/
theorem commandStepDispatchesOnCmdOp : Obligations.CommandStepDispatchesOnCmdOp := by
  intro s c cs ha hf hc
  have hstep : step s = exec (decodeCommand c) { s with cmds := cs } := step_of_command ha hf hc
  refine ⟨hstep, decodeCommand_of_opEncode, decodeCommand_of_opDecode, fun ho => ?_⟩
  exact hstep.trans (exec_decodeCommand_of_reserved ho _)

end Sys2Proof.Machine
end

section
/-! SUPPORT. ENCODE in IDLE (spec R110 to R116): its two outcomes, when each occurs, and what each writes. -/

namespace Sys2Proof.Machine

variable {s : State} {id : BitVec 32} {ext rtr : Bool} {dlc plen : BitVec 4} {pdata : List Byte}

/-! ### The two outcomes (spec R110) -/

theorem exec_encode_of_violation (hf : s.fsm = .idle) (hx : (encCheck id ext dlc plen).any = true) :
    exec (.encode id ext rtr dlc plen pdata) s = .next (s.encReject (encCheck id ext dlc plen)) := by
  simp [exec, execEncode, hf, hx]

theorem exec_encode_of_pass (hf : s.fsm = .idle) (hx : (encCheck id ext dlc plen).any = false) :
    exec (.encode id ext rtr dlc plen pdata) s = .next (s.encAccept (wireFrame id ext rtr dlc pdata)) := by
  simp [exec, execEncode, hf, hx]

/-! ### The check (spec R31, R111) -/

theorem tooWide_iff :
    tooWide id ext = true ↔ (ext = false ∧ 0x800 ≤ id.toNat) ∨ (ext = true ∧ 0x20000000 ≤ id.toNat) := by
  cases ext <;> simp [tooWide]

theorem encCheck_any_iff :
    (encCheck id ext dlc plen).any = true ↔
      8 < dlc.toNat ∨ plen ≠ dlc ∨ (ext = false ∧ 0x800 ≤ id.toNat) ∨ (ext = true ∧ 0x20000000 ≤ id.toNat) := by
  simp [EncFlags.any, encCheck, tooWide_iff, or_assoc]

/-! ### The emitted frame (spec R76, R112, R113) -/

theorem emitType_eq_or : emitType ext rtr dlc =
    0xC0#8 ||| (if ext then 0x20#8 else 0x00#8) ||| (if rtr then 0x10#8 else 0x00#8) ||| dlc.setWidth 8 := by
  cases ext <;> cases rtr <;> rfl

theorem emitType_false_and_bitFour : emitType ext false dlc &&& 0x10#8 = 0x00#8 := by
  cases ext <;> revert dlc <;> decide

theorem emitType_true_eq_or_bitFour : emitType ext true dlc = emitType ext false dlc ||| 0x10#8 := by
  cases ext <;> revert dlc <;> decide

theorem idBytes_eq_ite : idBytes id ext =
    if ext then [id.extractLsb' 0 8, id.extractLsb' 8 8, id.extractLsb' 16 8, id.extractLsb' 24 8]
    else [id.extractLsb' 0 8, id.extractLsb' 8 8] := by
  cases ext <;> rfl

/-- NBYTES does not see CMD_RTR: the two frames have the same length. -/
theorem wireFrame_length_rtr :
    (wireFrame id ext true dlc pdata).length = (wireFrame id ext false dlc pdata).length := by
  simp [wireFrame]

/-! ### ENC_STATUS as a number (spec R27) -/

/-- On OK the four bits of NBYTES hold the whole length, which is at most 15 (spec R114). -/
theorem encStatusWord_ok (h : dlc.toNat ≤ 8) :
    encStatusWord resultOk { errDlc := false, errLen := false, errId := false }
        (BitVec.ofNat 4 (frameLength ext dlc)) =
      BitVec.ofNat 16 (1 + 256 * ((if ext then 7 else 5) + dlc.toNat)) := by
  have hlen : frameLength ext dlc = (if ext then 7 else 5) + dlc.toNat := by cases ext <;> rfl
  have hfits : (BitVec.ofNat 4 (frameLength ext dlc)).toNat = frameLength ext dlc := by
    rw [BitVec.toNat_ofNat]
    exact Nat.mod_eq_of_lt (by split at hlen <;> omega)
  rw [encStatusWord_eq_ofNat, hfits, hlen]
  rfl

/-- On REJECT the word is RESULT and the weights of the violated constraints' flags (spec R115). -/
theorem encStatusWord_reject_encCheck :
    encStatusWord resultReject (encCheck id ext dlc plen) 0#4 =
      BitVec.ofNat 16 (2 + (if 8 < dlc.toNat then 4 else 0) + (if plen ≠ dlc then 8 else 0) +
        (if (ext = false ∧ 0x800 ≤ id.toNat) ∨ (ext = true ∧ 0x20000000 ≤ id.toNat) then 16 else 0)) := by
  have hdlc : 4 * (encCheck id ext dlc plen).errDlc.toNat = if 8 < dlc.toNat then 4 else 0 := by
    simp [encCheck, Bool.toNat, Bool.cond_decide]
  have hlen : 8 * (encCheck id ext dlc plen).errLen.toNat = if plen ≠ dlc then 8 else 0 := by
    simp [encCheck, Bool.toNat, bne, cond_eq_ite]
  have hid : 16 * (encCheck id ext dlc plen).errId.toNat =
      if (ext = false ∧ 0x800 ≤ id.toNat) ∨ (ext = true ∧ 0x20000000 ≤ id.toNat) then 16 else 0 := by
    simp [encCheck, Bool.toNat, cond_eq_ite, ← tooWide_iff]
  rw [encStatusWord_eq_ofNat, hdlc, hlen, hid]
  rfl

/-! ### The obligations -/

/-- Settles O9: the check passes, and the frame `encAccept` appends and the word it writes are those written out. -/
theorem encodeAppendsTheWireFrame : Obligations.EncodeAppendsTheWireFrame := by
  intro s id ext rtr dlc plen pdata hf hp hdlc hplen hstd hext
  have hpass : (encCheck id ext dlc plen).any = false := by
    rw [Bool.eq_false_iff, ne_eq, encCheck_any_iff]
    rintro (h | h | ⟨he, h⟩ | ⟨he, h⟩)
    · omega
    · exact h hplen
    · exact absurd (hstd he) (by omega)
    · exact absurd (hext he) (by omega)
  have hlen : (wireFrame id ext rtr dlc pdata).length = frameLength ext dlc :=
    wireFrame_length id ext rtr dlc pdata (hp ▸ hdlc)
  rw [exec_encode_of_pass hf hpass, State.encAccept, hlen, encStatusWord_ok hdlc, State.txAppend, wireFrame,
    emitType_eq_or, idBytes_eq_ite]
  simp only [List.append_assoc]

/-- Settles O10: any violation fails the check, and `encReject` writes nothing but the word of the flags. -/
theorem encodeRejectsEveryViolation : Obligations.EncodeRejectsEveryViolation := by
  intro s id ext rtr dlc plen pdata hf hviolation
  rw [exec_encode_of_violation hf (encCheck_any_iff.mpr hviolation), State.encReject, encStatusWord_reject_encCheck]

/-- Settles O11: the check reads the operands alone, so both states take the same outcome. -/
theorem encodeIsAFunctionOfItsOperands : Obligations.EncodeIsAFunctionOfItsOperands := by
  intro s1 s2 id ext rtr dlc plen pdata hf1 hf2
  cases hx : (encCheck id ext dlc plen).any with
  | true =>
    exact ⟨_, _, [], exec_encode_of_violation hf1 hx, exec_encode_of_violation hf2 hx, by simp⟩
  | false =>
    exact ⟨_, _, wireFrame id ext rtr dlc pdata, exec_encode_of_pass hf1 hx, exec_encode_of_pass hf2 hx, by simp⟩

/-- Settles O12: the check does not read CMD_RTR, and in the frame only the type byte does. -/
theorem rtrChangesOnlyBitFour : Obligations.RtrChangesOnlyBitFour := by
  intro s id ext dlc plen pdata hf
  cases hx : (encCheck id ext dlc plen).any with
  | true =>
    exact ⟨_, _, exec_encode_of_violation hf hx, exec_encode_of_violation hf hx, rfl, .inl ⟨rfl, rfl⟩⟩
  | false =>
    refine ⟨_, _, exec_encode_of_pass hf hx, exec_encode_of_pass hf hx, ?_,
      .inr ⟨emitType ext false dlc, idBytes id ext, emitType_false_and_bitFour, rfl, ?_⟩⟩
    · rw [encAccept_encStatus, encAccept_encStatus, wireFrame_length_rtr]
    · rw [encAccept_tx, wireFrame, emitType_true_eq_or_bitFour]

end Sys2Proof.Machine
end

section
/-! SUPPORT. The unit's step in a decoder state (spec R137): one rule per state for a byte, and the no-frame outcome of the
other events. -/

namespace Sys2Proof.Machine

variable {s : State} {f : Fsm} {w : Work} {es : List RxEvent}

/-- The rule of each decoder state on a byte (spec R138 to R143). -/
def byteRule : Fsm → Byte → Work → State → State
  | .idle => fun _ _ s => s
  | .dStart => onStartByte
  | .dType => onTypeByte
  | .dId => onIdByte
  | .dData => onDataByte
  | .dEnd => onEndByte

theorem step_of_event {ev : RxEvent} (ha : s.agenda = []) (hf : s.fsm ≠ .idle) (hrx : s.rx = ev :: es) :
    step s = onEvent ev (s.rxTake es) := by
  simp [step, nextMove, ha, unitStep, hf, decoderStep, hrx]

theorem step_of_byte {b : Byte} (ha : s.agenda = []) (hf : s.fsm = f) (hne : f ≠ .idle) (hw : s.work = some w)
    (hrx : s.rx = .byte b :: es) : step s = .next (byteRule f b w (s.rxTake es)) := by
  rw [step_of_event ha (hf ▸ hne) hrx]
  cases f with
  | idle => exact absurd rfl hne
  | dType => simp [onEvent, onByte, typeDispatch, hf, withWork, hw, byteRule]
  | dStart | dId | dData | dEnd => simp [onEvent, onByte, hf, withWork, hw, byteRule]

theorem step_of_timeout (ha : s.agenda = []) (hf : s.fsm = f) (hne : f ≠ .idle) (hw : s.work = some w)
    (hrx : s.rx = .timeout :: es) : step s = .next ((s.rxTake es).noFrame .timeout (stageOf f) w.wNb) := by
  rw [step_of_event ha (hf ▸ hne) hrx]
  simp [onEvent, withWork, hw, hf]

theorem step_of_fault (ha : s.agenda = []) (hf : s.fsm = f) (hne : f ≠ .idle) (hw : s.work = some w)
    (hrx : s.rx = .fault :: es) : step s = .next ((s.rxTake es).noFrame .transport (stageOf f) w.wNb) := by
  rw [step_of_event ha (hf ▸ hne) hrx]
  simp [onEvent, withWork, hw, hf]

/-! ### RES_STATUS, the counters and the type byte's dlc as numbers (spec R28, R24, R77) -/

/-- The word of a no-frame outcome (spec R151). -/
theorem resStatusWord_noFrame (code : ResCode) (stage : BitVec 3) (nb : BitVec 5) :
    resStatusWord code stage false nb false false =
      BitVec.ofNat 16 ((codeBits code).toNat + 16 * stage.toNat + 256 * nb.toNat) := by
  simp [resStatusWord_eq_ofNat]

theorem noFrame_eq_afterNoFrame (s : State) (code : ResCode) (stage : BitVec 3) (nb : BitVec 5) :
    s.noFrame code stage nb = afterNoFrame s (codeBits code).toNat stage.toNat nb.toNat := by
  rw [State.noFrame, resStatusWord_noFrame, afterNoFrame]

/-- The word of the FRAME outcome, with its two flags (spec R149, R150). -/
theorem resStatusWord_frame (nb : BitVec 5) (dlc : BitVec 4) (id : BitVec 32) (ext : Bool) :
    resStatusWord .frame 4#3 true nb (dlcMax < dlc.toNat) (tooWide id ext) =
      BitVec.ofNat 16 (1 + 16 * 4 + 128 + 256 * nb.toNat + (if 8 < dlc.toNat then 8192 else 0) +
        (if (if ext then 0x20000000 else 0x800) ≤ id.toNat then 16384 else 0)) := by
  have hdlc : 8192 * (decide (dlcMax < dlc.toNat)).toNat = if 8 < dlc.toNat then 8192 else 0 := by
    simp [Bool.toNat, Bool.cond_decide]
  have hid : 16384 * (tooWide id ext).toNat = if (if ext then 0x20000000 else 0x800) ≤ id.toNat then 16384 else 0 := by
    cases ext <;> simp [tooWide, Bool.toNat, Bool.cond_decide]
  rw [resStatusWord_eq_ofNat, hdlc, hid]
  rfl

/-- A counter short of its top value rises by 1 (spec R24). -/
theorem toNat_add_one_of_lt {n : Nat} {x : BitVec n} (h : x.toNat + 1 < 2 ^ n) : (x + 1#n).toNat = x.toNat + 1 := by
  have hone : (1#n).toNat = 1 := Nat.mod_eq_of_lt (by omega)
  rw [BitVec.toNat_add_of_lt (by omega), hone]

theorem typeDlc_toNat (t : Byte) : (typeDlc t).toNat = (t &&& 0x0F#8).toNat := by
  have hmask : t.toNat &&& 15 = t.toNat % 16 := Nat.and_two_pow_sub_one_eq_mod t.toNat 4
  simp [typeDlc, hmask]

theorem typeDlc_eq_zero_iff (t : Byte) : typeDlc t = 0#4 ↔ t &&& 0x0F#8 = 0#8 := by
  rw [← BitVec.toNat_inj, typeDlc_toNat, ← BitVec.toNat_inj]
  rfl

/-! ### DECODE's acceptance and D_START (spec R136, R138) -/

theorem exec_decode_of_idle (hf : s.fsm = .idle) :
    exec .decode s = .next { s with fsm := .dStart, work := some clearedWork } := by
  simp [exec, execDecode, hf]

theorem step_of_decode {c : Command} {cs : List Command} (ha : s.agenda = []) (hf : s.fsm = .idle)
    (hc : s.cmds = c :: cs) (ho : c.op = opDecode) :
    step s = .next { s with cmds := cs, fsm := .dStart, work := some clearedWork } := by
  rw [step_of_command ha hf hc, decodeCommand_of_opDecode ho]
  exact exec_decode_of_idle (s := { s with cmds := cs }) hf

/-- Settles O15: in IDLE the command is accepted, and `clearedWork` is the zero of every working register. -/
theorem decodeAcceptanceStartsFresh : Obligations.DecodeAcceptanceStartsFresh :=
  fun _ hf => exec_decode_of_idle hf

/-- Settles O16: `onStartByte` is the state's rule, with one branch for START and one for any other byte. -/
theorem startStateRule : Obligations.StartStateRule := by
  intro s w b es ha hf hw hrx
  rw [step_of_byte ha hf (by decide) hw hrx, byteRule]
  refine ⟨fun hb => ?_, fun hb => ?_⟩
  · rw [onStartByte, if_pos hb]; rfl
  · rw [onStartByte, if_neg hb, noFrame_eq_afterNoFrame]; rfl

end Sys2Proof.Machine
end

section
/-! SUPPORT. The payload the frame result registers hold, and D_END on a byte (spec R143, R149). -/

namespace Sys2Proof.Machine

theorem filterMap_mapIdx_lt {α : Type} (l : List α) (n : Nat) :
    (l.mapIdx fun i a => if i < n then some a else none).filterMap id = l.take n := by
  induction l generalizing n with
  | nil => simp
  | cons a l ih =>
    cases n with
    | zero => simp
    | succ n => simpa using ih n

/-- The entries of RES_DATA with a value are W_DATA's first dlc bytes (spec R149). -/
theorem captureData_payload (d : Vector Byte 15) (dlc : BitVec 4) :
    (captureData d dlc).toList.filterMap id = d.toList.take dlc.toNat := by
  have hlist : (captureData d dlc).toList = d.toList.mapIdx fun i a => if i < dlc.toNat then some a else none := by
    apply List.ext_getElem <;> simp
  rw [hlist, filterMap_mapIdx_lt]

/-- The frame `accept()` delivers has the fields of the working registers (spec R149). -/
theorem capture_frame (w : Work) (ts : BitVec Config.tsWidth) :
    (capture w ts).frame =
      { id := w.wId, ext := w.wExt, rtr := w.wRtr, dlc := w.wDlc, payload := w.wData.toList.take w.wDlc.toNat,
        timestamp := ts } := by
  simp only [FrameRegs.frame, capture, captureData_payload]

/-- Settles O21: END accepts, and `capture` holds the working registers; any other byte is the no-frame outcome. -/
theorem endStateRule : Obligations.EndStateRule := by
  intro s w b es ha hf hw hrx
  rw [step_of_byte ha hf (by decide) hw hrx, byteRule]
  refine ⟨fun hb => ⟨capture w s.tsNow, ?step, rfl, rfl, rfl, rfl, rfl, rfl, ?data, ?payload⟩, fun hb => ?_⟩
  case step =>
    rw [onEndByte, if_pos hb, State.acceptFrame, resStatusWord_frame, Work.wDlc, typeDlc_toNat]
    rfl
  case data => exact fun i => captureData_getElem w.wData w.wDlc i.val i.isLt
  case payload =>
    have hdlc : w.wDlc.toNat ≤ 15 := Nat.le_of_lt_succ w.wDlc.isLt
    rw [capture_frame, List.length_take, Vector.length_toList, Nat.min_eq_left hdlc]
    rfl
  · rw [onEndByte, if_neg hb, noFrame_eq_afterNoFrame]; rfl

end Sys2Proof.Machine
end

section
/-! SUPPORT. D_DATA on a byte, and when a step ends in D_DATA (spec R142). -/

namespace Sys2Proof.Machine

variable {s t : State} {f : Fsm} {w : Work}

/-- W_CNT is an index of the payload: what the invariant says of D_DATA (spec R24, R142). -/
def payloadIndexed (s : State) : Prop :=
  ∃ w, s.work = some w ∧ w.wCnt.toNat < w.wDlc.toNat

theorem payloadIndexed_of_inv (hinv : s.inv = true) (hf : s.fsm = .dData) : payloadIndexed s := by
  simp only [State.inv, Bool.and_eq_true] at hinv
  obtain ⟨-, hwork⟩ := hinv
  cases hw : s.work with
  | none => simp [hf, hw, workOk] at hwork
  | some w =>
    simp only [hf, hw, workOk, Bool.and_eq_true, decide_eq_true_eq] at hwork
    obtain ⟨⟨⟨hcnt, -⟩, -⟩, -⟩ := hwork
    exact ⟨w, hw, hcnt⟩

/-- D_ID goes on to D_DATA only with dlc at least 1, and W_CNT is 0 then (spec R141). -/
theorem payloadIndexed_onIdByte (b : Byte) (hf : s.fsm = .dId) (ht : (onIdByte b w s).fsm = .dData) :
    payloadIndexed (onIdByte b w s) := by
  unfold onIdByte at ht ⊢
  split at ht
  case isFalse => simp [hf] at ht
  case isTrue hlast =>
    have hdlc : w.wDlc ≠ 0#4 := by rintro h; simp [h] at ht
    rw [if_pos hlast]
    exact ⟨_, rfl, Nat.pos_of_ne_zero fun h => hdlc (BitVec.eq_of_toNat_eq h)⟩

/-- Short of the last byte W_CNT rises to at most dlc - 1 (spec R142). -/
theorem payloadIndexed_onDataByte (b : Byte) (hcnt : w.wCnt.toNat < w.wDlc.toNat)
    (ht : (onDataByte b w s).fsm = .dData) : payloadIndexed (onDataByte b w s) := by
  unfold onDataByte at ht ⊢
  split at ht
  case isTrue => simp at ht
  case isFalse hmore =>
    rw [if_neg hmore]
    have hdlc := w.wDlc.isLt
    have hnext : (w.wCnt + 1#4).toNat = w.wCnt.toNat + 1 := toNat_add_one_of_lt (by omega)
    refine ⟨_, rfl, ?_⟩
    show (w.wCnt + 1#4).toNat < w.wDlc.toNat
    omega

theorem payloadIndexed_of_unitEffect (hinv : s.inv = true) (h : UnitEffect s t) (ht : t.fsm = .dData) :
    payloadIndexed t := by
  cases h with
  | noCommand | wait => exact payloadIndexed_of_inv hinv ht
  | encReject hf | encAccept hf => simp [hf] at ht
  | decode | timeout | fault => simp at ht
  | startByte => unfold onStartByte at ht; split at ht <;> simp at ht
  | typeByte => unfold onTypeByte at ht; split at ht <;> simp at ht
  | endByte => unfold onEndByte at ht; split at ht <;> simp at ht
  | idByte hf => exact payloadIndexed_onIdByte _ hf ht
  | dataByte hf hr hw =>
    obtain ⟨w', hw', hcnt⟩ := payloadIndexed_of_inv hinv hf
    obtain rfl : w' = _ := Option.some.inj (hw'.symm.trans hw)
    exact payloadIndexed_onDataByte _ hcnt ht

theorem payloadIndexed_of_otherEffect {m : Move} (hinv : s.inv = true) (h : OtherEffect s m t)
    (ht : t.fsm = .dData) : payloadIndexed t := by
  cases h with
  | deliver | issue | read => exact payloadIndexed_of_inv (s := s) hinv ht
  | reset => simp at ht

/-- Settles O20: `onDataByte` is the state's rule, and every step that ends in D_DATA leaves W_CNT below dlc. -/
theorem dataStateRule : Obligations.DataStateRule := by
  refine ⟨fun s w b es ha hf hw hrx => ⟨putData w.wData w.wCnt.toNat b, ?_, fun hlast => ?_, fun hmore => ?_⟩,
    fun s t hinv hstep ht => ?_⟩
  · exact fun i => putData_getElem w.wData w.wCnt.toNat b i.val i.isLt
  · rw [← typeDlc_toNat] at hlast
    rw [step_of_byte ha hf (by decide) hw hrx, byteRule, onDataByte, Work.wDlc, if_pos hlast]; rfl
  · rw [← typeDlc_toNat] at hmore
    rw [step_of_byte ha hf (by decide) hw hrx, byteRule, onDataByte, Work.wDlc, if_neg hmore]; rfl
  · have hindexed : payloadIndexed t := by
      rcases step_cases hstep with ⟨-, h⟩ | ⟨ms, -, h⟩ | ⟨m, ms, -, h⟩
      · exact payloadIndexed_of_unitEffect hinv h ht
      · exact payloadIndexed_of_unitEffect (s := { s with agenda := ms }) hinv h ht
      · exact payloadIndexed_of_otherEffect (s := { s with agenda := ms }) hinv h ht
    obtain ⟨w, hw, hcnt⟩ := hindexed
    exact ⟨w, hw, typeDlc_toNat w.wType ▸ hcnt⟩

end Sys2Proof.Machine
end

section
/-! SUPPORT. D_ID on a byte, and the id field as a whole (spec R141, R56). -/

namespace Sys2Proof.Machine

variable {s : State} {w : Work}

/-- On an id of `k` bytes the OR of byte `k` is addition (spec R56). -/
theorem placeIdByte_toNat {id : BitVec 32} {k : Nat} (b : Byte) (hid : id.toNat < 2 ^ (8 * k)) (hk : k < 4) :
    (placeIdByte id b k).toNat = id.toNat + 2 ^ (8 * k) * b.toNat := by
  have hfits : b.toNat * 2 ^ (8 * k) < 2 ^ 32 := by
    calc b.toNat * 2 ^ (8 * k) < 2 ^ 8 * 2 ^ (8 * k) := Nat.mul_lt_mul_of_pos_right b.isLt (Nat.two_pow_pos _)
      _ = 2 ^ (8 + 8 * k) := (Nat.pow_add ..).symm
      _ ≤ 2 ^ 32 := Nat.pow_le_pow_right (by decide) (by omega)
  have hb : b.toNat % 2 ^ 32 = b.toNat := Nat.mod_eq_of_lt (by have := b.isLt; omega)
  rw [placeIdByte, BitVec.toNat_or, BitVec.toNat_shiftLeft, BitVec.toNat_setWidth, hb, Nat.shiftLeft_eq,
    Nat.mod_eq_of_lt hfits, or_field _ (8 * k) rfl hid, Nat.mul_comm]

theorem assembleFrom_toNat (id : BitVec 32) (k : Nat) (bs : List Byte) (hid : id.toNat < 2 ^ (8 * k))
    (hk : k + bs.length ≤ 4) :
    (assembleFrom id k bs).toNat = id.toNat + 2 ^ (8 * k) * Nat.ofDigits (2 ^ 8) (bs.map BitVec.toNat) := by
  induction bs generalizing id k with
  | nil => simp [assembleFrom]
  | cons b bs ih =>
    rw [List.length_cons] at hk
    have hplaced := placeIdByte_toNat b hid (by omega)
    have hpow : 2 ^ (8 * (k + 1)) = 2 ^ (8 * k) * 2 ^ 8 := by rw [← Nat.pow_add, Nat.mul_succ]
    have hwide : (placeIdByte id b k).toNat < 2 ^ (8 * (k + 1)) := by
      rw [hplaced, hpow]
      have := b.isLt
      nlinarith
    rw [assembleFrom, ih _ _ hwide (by omega), hplaced, hpow, List.map_cons, Nat.ofDigits_cons]
    ring

theorem step_idByte_last {b : Byte} {es : List RxEvent} (ha : s.agenda = []) (hf : s.fsm = .dId)
    (hw : s.work = some w) (hrx : s.rx = .byte b :: es) (hlast : w.wCnt.toNat + 1 = w.wW) :
    step s = .next { afterEvent s es with
      fsm := if w.wDlc = 0#4 then .dEnd else .dData
      work := some { w with wId := placeIdByte w.wId b w.wCnt.toNat, wNb := w.wNb + 1#5, wCnt := 0#4 } } := by
  rw [step_of_byte ha hf (by decide) hw hrx, byteRule, onIdByte, if_pos hlast]; rfl

theorem step_idByte_more {b : Byte} {es : List RxEvent} (ha : s.agenda = []) (hf : s.fsm = .dId)
    (hw : s.work = some w) (hrx : s.rx = .byte b :: es) (hmore : w.wCnt.toNat + 1 ≠ w.wW) :
    step s = .next { afterEvent s es with
      work := some { w with wId := placeIdByte w.wId b w.wCnt.toNat, wNb := w.wNb + 1#5, wCnt := w.wCnt + 1#4 } } := by
  rw [step_of_byte ha hf (by decide) hw hrx, byteRule, onIdByte, if_neg hmore]; rfl

theorem core_run_succ_of_step {s t : State} (k : Nat) (h : step s = .next t) : core.run (k + 1) s = core.run k t := by
  have hstep : core.step s = .next t := h
  simp [Host.Core.run, hstep]

/-- Reading the rest of the id field: W_ID takes every byte at its place, and the next state depends on dlc alone. -/
theorem run_idBytes {es : List RxEvent} {bs : List Byte} (hne : bs ≠ []) (ha : s.agenda = []) (hf : s.fsm = .dId)
    (hw : s.work = some w) (hrx : s.rx = bs.map .byte ++ es) (hlen : w.wCnt.toNat + bs.length = w.wW) :
    ∃ t w', core.run bs.length s = .next t ∧ t.rx = es ∧ t.work = some w' ∧
      w'.wId = assembleFrom w.wId w.wCnt.toNat bs ∧ t.fsm = if w.wDlc = 0#4 then .dEnd else .dData := by
  induction bs generalizing s w with
  | nil => exact absurd rfl hne
  | cons b bs ih =>
    rw [List.length_cons] at hlen
    by_cases hbs : bs = []
    · subst hbs
      exact ⟨_, _, core_run_succ_of_step 0 (step_idByte_last ha hf hw hrx hlen), rfl, rfl, rfl, rfl⟩
    · have hpos := List.length_pos_iff.mpr hbs
      have hwidth : w.wW ≤ 4 := idWidth_le_four w.wExt
      have hcnt : (w.wCnt + 1#4).toNat = w.wCnt.toNat + 1 := toNat_add_one_of_lt (by omega)
      obtain ⟨t, w', hrun, htail⟩ := ih hbs (s := { afterEvent s (bs.map .byte ++ es) with
          work := some { w with wId := placeIdByte w.wId b w.wCnt.toNat, wNb := w.wNb + 1#5, wCnt := w.wCnt + 1#4 } })
        ha hf rfl rfl (by show (w.wCnt + 1#4).toNat + bs.length = w.wW; omega)
      rw [hcnt] at htail
      have hmore : w.wCnt.toNat + 1 ≠ w.wW := by omega
      exact ⟨t, w', (core_run_succ_of_step _ (step_idByte_more ha hf hw hrx hmore)).trans hrun, htail⟩

/-- From an empty field the bytes are the digits of W_ID in base 2^8 (spec R141). -/
theorem run_idField {es : List RxEvent} {bs : List Byte} (ha : s.agenda = []) (hf : s.fsm = .dId)
    (hw : s.work = some w) (hid : w.wId = 0#32) (hcnt : w.wCnt = 0#4) (hlen : bs.length = w.wW)
    (hrx : s.rx = bs.map .byte ++ es) :
    ∃ t w', core.run bs.length s = .next t ∧ t.rx = es ∧ t.work = some w' ∧
      w'.wId.toNat = Nat.ofDigits (2 ^ 8) (bs.map BitVec.toNat) ∧ t.fsm = if w.wDlc = 0#4 then .dEnd else .dData := by
  have hwidth : w.wW ≤ 4 := idWidth_le_four w.wExt
  have hpos : 0 < w.wW := by rw [Work.wW]; cases w.wExt <;> decide
  obtain ⟨t, w', hrun, hes, hw', hid', hfsm⟩ :=
    run_idBytes (List.length_pos_iff.mp (by omega)) ha hf hw hrx (by simpa [hcnt] using hlen)
  refine ⟨t, w', hrun, hes, hw', ?_, hfsm⟩
  rw [hid', hid, hcnt, assembleFrom_toNat _ _ _ (by simp) (by simp; omega)]
  simp

/-- Settles O19: the last id byte and an earlier one are the two branches of `onIdByte`; the field of either width is
`run_idField`. -/
theorem idStateRule : Obligations.IdStateRule := by
  intro s w ha hf hw
  have hdlc : (if w.wDlc = 0#4 then Fsm.dEnd else .dData) = if w.wType &&& 0x0F#8 = 0#8 then .dEnd else .dData :=
    if_congr (typeDlc_eq_zero_iff w.wType) rfl rfl
  refine ⟨fun b es hrx => ⟨fun hlast => ?_, fun hmore => ?_⟩, fun hid hcnt hext b0 b1 es hrx => ?_,
    fun hid hcnt hext b0 b1 b2 b3 es hrx => ?_⟩
  · rw [step_idByte_last ha hf hw hrx hlast, hdlc]; rfl
  · rw [step_idByte_more ha hf hw hrx hmore]; rfl
  · have hwidth : w.wW = 2 := congrArg idWidth hext
    obtain ⟨t, w', hrun, hes, hw', hid', hfsm⟩ := run_idField (bs := [b0, b1]) ha hf hw hid hcnt hwidth.symm hrx
    refine ⟨t, w', hrun, hes, hw', hid'.trans ?_, hfsm.trans hdlc⟩
    simp [Nat.ofDigits_cons]
  · have hwidth : w.wW = 4 := congrArg idWidth hext
    obtain ⟨t, w', hrun, hes, hw', hid', hfsm⟩ :=
      run_idField (bs := [b0, b1, b2, b3]) ha hf hw hid hcnt hwidth.symm hrx
    refine ⟨t, w', hrun, hes, hw', hid'.trans ?_, hfsm.trans hdlc⟩
    simp [Nat.ofDigits_cons]
    omega

end Sys2Proof.Machine
end

section
/-! SUPPORT. What a receive attempt can do, said once: the bytes it reads and where it ends (spec R147, R152). -/

namespace Sys2Proof.Machine

/-- The stage an attempt stands in once it has read the bytes `bs` and has not ended (spec R137 to R143). -/
inductive StageAfter : BitVec 3 → List Byte → Prop
  | start : StageAfter 0#3 []
  | type (b : Byte) : StageAfter 1#3 [b]
  | id (b t : Byte) {idb : List Byte} (hid : idb.length < idWidth (typeExt t)) : StageAfter 2#3 ([b, t] ++ idb)
  | data (b t : Byte) {idb data : List Byte} (hid : idb.length = idWidth (typeExt t))
      (hdata : data.length < (typeDlc t).toNat) : StageAfter 3#3 ([b, t] ++ idb ++ data)
  | endByte (b t : Byte) {idb data : List Byte} (hid : idb.length = idWidth (typeExt t))
      (hdata : data.length = (typeDlc t).toNat) : StageAfter 4#3 ([b, t] ++ idb ++ data)

/-- Everything `decodeAttempt` can answer of the events `evs`: a result and the number of events consumed. -/
inductive AttemptEffect (p : DlcPolicy) (evs : List RxEvent) : AttemptResult × Nat → Prop
  /-- The events run out before the attempt ends (spec R186). -/
  | wait {bs : List Byte} (hevs : evs = bs.map .byte) : AttemptEffect p evs (.wait, bs.length)
  /-- A Timeout or a Fault follows the bytes read (spec R137). -/
  | cut {code : ResCode} {stage : BitVec 3} {bs : List Byte} {ev : RxEvent} {es : List RxEvent}
      (hcode : code = .timeout ∨ code = .transport) (hev : ev.isByte = false) (hevs : evs = bs.map .byte ++ ev :: es)
      (hstage : StageAfter stage bs) :
      AttemptEffect p evs (.noFrame code stage bs.length, bs.length + 1)
  /-- The first byte is not START (spec R138). -/
  | badStart {b : Byte} {es : List RxEvent} (hevs : evs = [b].map .byte ++ es) :
      AttemptEffect p evs (.noFrame .badStart 0#3 1, 1)
  /-- The policy rejects the type byte (spec R140). -/
  | dlcRange {b t : Byte} {es : List RxEvent} (hevs : evs = [b, t].map .byte ++ es) (hp : p = .reject) :
      AttemptEffect p evs (.noFrame .dlcRange 1#3 2, 2)
  /-- The byte after the payload is not END (spec R143). -/
  | badEnd {b t e : Byte} {idb data : List Byte} {es : List RxEvent} (hid : idb.length = idWidth (typeExt t))
      (hdata : data.length = (typeDlc t).toNat) (hevs : evs = ([b, t] ++ idb ++ data ++ [e]).map .byte ++ es) :
      AttemptEffect p evs
        (.noFrame .badEnd 4#3 ([b, t] ++ idb ++ data ++ [e]).length, ([b, t] ++ idb ++ data ++ [e]).length)
  /-- The whole frame is read (spec R149). -/
  | frame {b t e : Byte} {idb data : List Byte} {es : List RxEvent} (hid : idb.length = idWidth (typeExt t))
      (hdata : data.length = (typeDlc t).toNat) (hevs : evs = ([b, t] ++ idb ++ data ++ [e]).map .byte ++ es) :
      AttemptEffect p evs
        (.frame (assembleFrom 0#32 0 idb) (typeExt t) (typeRtr t) (typeDlc t) data t
          ([b, t] ++ idb ++ data ++ [e]).length, ([b, t] ++ idb ++ data ++ [e]).length)

/-- The cursor stands behind the bytes `bs` of the events `evs`, and has counted them. -/
def Cursor.behind (c : Cursor) (bs : List Byte) (evs : List RxEvent) : Prop :=
  evs = bs.map .byte ++ c.evs ∧ c.i = bs.length ∧ c.nb = bs.length

variable {p : DlcPolicy} {evs : List RxEvent} {stage : BitVec 3} {c : Cursor} {bs : List Byte}

/-- One event at a stage: only a byte goes on (spec R137). -/
theorem nextByte_effect {k : Byte → Cursor → AttemptResult × Nat} (hc : c.behind bs evs)
    (hstage : StageAfter stage bs) (hk : ∀ b c', c'.behind (bs ++ [b]) evs → AttemptEffect p evs (k b c')) :
    AttemptEffect p evs (nextByte stage c k) := by
  obtain ⟨rest, i, nb⟩ := c
  obtain ⟨hevs, hi, hnb⟩ := hc
  dsimp only at hevs hi hnb
  subst hi hnb
  match rest with
  | [] => exact .wait (by simpa using hevs)
  | .timeout :: _ => exact .cut (.inl rfl) rfl hevs hstage
  | .fault :: _ => exact .cut (.inr rfl) rfl hevs hstage
  | .byte b :: es => exact hk b _ ⟨by simpa using hevs, by simp, by simp⟩

/-- A field of `n` bytes, one event each (spec R54). -/
theorem nextBytes_effect {n : Nat} {k : List Byte → Cursor → AttemptResult × Nat} (hc : c.behind bs evs)
    (hstage : ∀ field, field.length < n → StageAfter stage (bs ++ field))
    (hk : ∀ field c', field.length = n → c'.behind (bs ++ field) evs → AttemptEffect p evs (k field c')) :
    AttemptEffect p evs (nextBytes stage n c k) := by
  induction n generalizing c bs k with
  | zero => exact hk [] c rfl (by simpa using hc)
  | succ n ih =>
    refine nextByte_effect hc (by simpa using hstage [] (by simp)) fun b c' hc' => ih hc' ?_ ?_
    · intro field hfield
      simpa using hstage (b :: field) (by simpa using hfield)
    · intro field c'' hfield hc''
      exact hk (b :: field) c'' (by simpa using hfield) (by simpa using hc'')

theorem decodeAttempt_effect (p : DlcPolicy) (evs : List RxEvent) : AttemptEffect p evs (decodeAttempt p evs) := by
  -- D_START
  refine nextByte_effect (c := ⟨evs, 0, 0⟩) ⟨rfl, rfl, rfl⟩ .start fun b c₁ h₁ => ?_
  split
  case isTrue =>
    obtain ⟨hevs, hi, hnb⟩ := h₁
    rw [hi, hnb]
    exact .badStart hevs
  -- D_TYPE
  refine nextByte_effect h₁ (.type b) fun t c₂ h₂ => ?_
  split
  case isTrue hreject =>
    obtain ⟨hevs, hi, hnb⟩ := h₂
    rw [hi, hnb]
    exact .dlcRange hevs hreject.1
  -- D_ID, D_DATA
  refine nextBytes_effect h₂ (fun idb hid => .id b t hid) fun idb c₃ hid h₃ => ?_
  refine nextBytes_effect h₃ (fun data hdata => .data b t hid hdata) fun data c₄ hdata h₄ => ?_
  -- D_END
  refine nextByte_effect h₄ (.endByte b t hid hdata) fun e c₅ h₅ => ?_
  obtain ⟨hevs, hi, hnb⟩ := h₅
  rw [hi, hnb]
  split
  case isTrue => exact .badEnd hid hdata hevs
  case isFalse => exact .frame hid hdata hevs

/-! ### Accounting (spec R147) -/

theorem countP_isByte_take_length {es : List RxEvent} (hevs : evs = bs.map .byte ++ es) :
    (evs.take bs.length).countP RxEvent.isByte = bs.length := by
  have htake : evs.take bs.length = bs.map .byte := by simp [hevs]
  rw [htake, List.countP_map, List.countP_eq_length]
  exact fun _ _ => rfl

theorem countP_isByte_take_length_succ {ev : RxEvent} {es : List RxEvent} (hevs : evs = bs.map .byte ++ ev :: es)
    (hev : ev.isByte = false) : (evs.take (bs.length + 1)).countP RxEvent.isByte = bs.length := by
  have htake : evs.take (bs.length + 1) = evs.take bs.length ++ [ev] := by simp [hevs, List.take_append]
  rw [htake, List.countP_append, countP_isByte_take_length hevs]
  simp [hev]

theorem getElem?_of_bytes {es : List RxEvent} {j : Nat} {b : Byte} (hevs : evs = bs.map .byte ++ es)
    (hb : bs[j]? = some b) : evs[j]? = some (.byte b) := by
  obtain ⟨hj, -⟩ := List.getElem?_eq_some_iff.mp hb
  rw [hevs, List.getElem?_append_left (by simpa using hj), List.getElem?_map, hb, Option.map_some]

/-- How many bytes an attempt has read at each stage (spec R147). -/
theorem StageAfter.length_of_stage (h : StageAfter stage bs) :
    (stage = 0#3 → bs.length = 0) ∧ (stage = 1#3 → bs.length = 1) ∧
    (2 ≤ stage.toNat → ∃ t, bs[1]? = some t ∧
      (stage = 2#3 → 2 ≤ bs.length ∧ bs.length < 2 + idWidth (typeExt t)) ∧
      (stage = 3#3 → 2 + idWidth (typeExt t) ≤ bs.length ∧
        bs.length < 2 + idWidth (typeExt t) + (typeDlc t).toNat) ∧
      (stage = 4#3 → bs.length = 2 + idWidth (typeExt t) + (typeDlc t).toNat)) := by
  cases h with
  | start | type => simp
  | id b t hid => simp; omega
  | data b t hid hdata => simp [hid]; omega
  | endByte b t hid hdata => simp [hid, hdata]; omega

/-- Settles O28: each effect of an attempt has read the bytes that its stage and outcome say. -/
theorem attemptAccounting : Obligations.AttemptAccounting := by
  intro p evs r i h
  have heffect := decodeAttempt_effect p evs
  rw [h] at heffect
  cases heffect with
  | wait hevs => simp [hevs]
  | cut hcode hev hevs hstage =>
    obtain ⟨hstart, htype, hfields⟩ := hstage.length_of_stage
    refine ⟨(countP_isByte_take_length_succ hevs hev).symm, by rw [if_pos hcode], fun _ => hstart, fun _ => htype,
      fun hc => absurd hcode (by simp [hc]), fun hc => absurd hcode (by simp [hc]),
      fun hc => absurd hcode (by simp [hc]), fun hge => ?_⟩
    obtain ⟨t, ht, hid, hdata, hend⟩ := hfields hge
    exact ⟨t, getElem?_of_bytes hevs ht, fun _ => hid, fun _ => hdata, fun _ => hend,
      fun hc => absurd hcode (by simp [hc])⟩
  | badStart hevs => simpa using (countP_isByte_take_length hevs).symm
  | dlcRange hevs hp => simpa [hp] using (countP_isByte_take_length hevs).symm
  | badEnd hid hdata hevs =>
    have hcount := countP_isByte_take_length hevs
    have htype := getElem?_of_bytes (j := 1) hevs rfl
    simp only [hcount, htype]
    simp [hid, hdata]
    omega
  | frame hid hdata hevs =>
    refine ⟨(countP_isByte_take_length hevs).symm, rfl, ?_, hdata⟩
    simp [hid, hdata]
    omega

end Sys2Proof.Machine
end

section
/-! SUPPORT. RTR in an attempt (spec R146): no stage reads it, and only the delivered frame carries it. -/

namespace Sys2Proof.Machine

/-- An answer of `decodeAttempt` with RTR and the type byte left out of its result. -/
def forgetRtr (a : AttemptResult × Nat) : AttemptResult × Nat := (a.1.sansRtr, a.2)

theorem nextByte_byte (stage : BitVec 3) (b : Byte) (es : List RxEvent) (i nb : Nat)
    (k : Byte → Cursor → AttemptResult × Nat) :
    nextByte stage { evs := .byte b :: es, i := i, nb := nb } k = k b { evs := es, i := i + 1, nb := nb + 1 } := rfl

theorem forgetRtr_nextByte (stage : BitVec 3) (c : Cursor) (k : Byte → Cursor → AttemptResult × Nat) :
    forgetRtr (nextByte stage c k) = nextByte stage c fun b c' => forgetRtr (k b c') := by
  obtain ⟨evs, i, nb⟩ := c
  match evs with
  | [] | .timeout :: _ | .fault :: _ | .byte _ :: _ => rfl

theorem forgetRtr_nextBytes (stage : BitVec 3) (n : Nat) (c : Cursor)
    (k : List Byte → Cursor → AttemptResult × Nat) :
    forgetRtr (nextBytes stage n c k) = nextBytes stage n c fun bs c' => forgetRtr (k bs c') := by
  induction n generalizing c k with
  | zero => rfl
  | succ n ih => simp only [nextBytes, forgetRtr_nextByte, ih]

theorem typeExt_flipRtr (t : Byte) : typeExt (t ^^^ 0x10#8) = typeExt t := by
  simp [typeExt]

theorem typeDlc_flipRtr (t : Byte) : typeDlc (t ^^^ 0x10#8) = typeDlc t := by
  ext i hi
  interval_cases i <;> simp [typeDlc]

/-- The attempt from its type byte on, as far as RTR is left out, is a function of t[5] and t[3:0] (spec R77, R146). -/
theorem forgetRtr_decodeAttempt (p : DlcPolicy) (t : Byte) (es : List RxEvent) :
    forgetRtr (decodeAttempt p (.byte startByte :: .byte t :: es)) =
      if p = .reject ∧ dlcMax < (typeDlc t).toNat then (.noFrame .dlcRange 1#3 2, 2)
      else nextBytes 2#3 (idWidth (typeExt t)) { evs := es, i := 2, nb := 2 } fun idb c =>
        nextBytes 3#3 (typeDlc t).toNat c fun data c =>
          nextByte 4#3 c fun e c =>
            if e ≠ endByte then (.noFrame .badEnd 4#3 c.nb, c.i)
            else (.frame (assembleFrom 0#32 0 idb) (typeExt t) false (typeDlc t) data 0#8 c.nb, c.i) := by
  have hstart : ¬startByte ≠ startByte := not_not_intro rfl
  rw [decodeAttempt, nextByte_byte, if_neg hstart, nextByte_byte, apply_ite forgetRtr]
  simp only [forgetRtr_nextBytes, forgetRtr_nextByte, apply_ite forgetRtr]
  rfl

/-- Settles O30: flipping bit 4 changes neither t[5] nor t[3:0]. -/
theorem rtrChangesNothingRead : Obligations.RtrChangesNothingRead := by
  intro p t es
  have hforget : forgetRtr (decodeAttempt p (.byte startByte :: .byte (t ^^^ 0x10#8) :: es)) =
      forgetRtr (decodeAttempt p (.byte startByte :: .byte t :: es)) := by
    rw [forgetRtr_decodeAttempt, forgetRtr_decodeAttempt, typeExt_flipRtr, typeDlc_flipRtr]
  obtain ⟨hresult, hconsumed⟩ := Prod.mk.inj hforget
  exact ⟨hconsumed, hresult⟩

end Sys2Proof.Machine
end

section
/-! SUPPORT. The unit's steps after a DECODE compose into `decodeAttempt` (spec R152): each stage of the function is matched
by the steps of one decoder state. -/

namespace Sys2Proof.Machine

variable {s u v t : State} {f : Fsm} {w : Work} {c : Cursor} {a : AttemptResult × Nat}

/-! ### The states of an attempt -/

/-- The attempt that began in `s`, with the events at `c` now to read: nothing but the decoder's own registers and the RX
input differs from `s`. -/
def State.during (s : State) (c : Cursor) (f : Fsm) (w : Work) : State :=
  { s with fsm := f, rx := c.evs, rxTaken := s.rxTaken + c.i, work := some w }

@[simp] theorem during_policy : (s.during c f w).policy = s.policy := rfl

/-- What no step of an attempt touches (spec R152). -/
def State.keptBy (s t : State) : Prop :=
  t.cmds = s.cmds ∧ t.tx = s.tx ∧ t.encStatus = s.encStatus ∧ t.policy = s.policy ∧ t.seen = s.seen

/-- From `u`, one event a step, the attempt that began in `s` comes to stand as the answer `a` says. -/
def Completes (s u : State) (a : AttemptResult × Nat) : Prop :=
  ∃ n t, core.run n u = .next t ∧ t.rx = u.rx.drop n ∧ t.rxTaken = u.rxTaken + n ∧ t.rxTaken = s.rxTaken + a.2 ∧
    s.keptBy t ∧ attemptShows s t a.1

theorem completes_now (htaken : u.rxTaken = s.rxTaken + a.2) (hkept : s.keptBy u) (hshows : attemptShows s u a.1) :
    Completes s u a :=
  ⟨0, u, rfl, rfl, rfl, htaken, hkept, hshows⟩

theorem completes_of_step {ev : RxEvent} (hstep : step u = .next v) (hrx : u.rx = ev :: v.rx)
    (htaken : v.rxTaken = u.rxTaken + 1) (h : Completes s v a) : Completes s u a := by
  obtain ⟨n, t, hrun, hdrop, hn, hshown⟩ := h
  refine ⟨n + 1, t, (core_run_succ_of_step n hstep).trans hrun, ?_, by omega, hshown⟩
  rw [hrx, List.drop_succ_cons, hdrop]

/-- A no-frame outcome shows its code, its stage and the count of bytes (spec R151). -/
theorem completes_noFrame {code : ResCode} {stage : BitVec 3} {nb : BitVec 5} {n : Nat} {es : List RxEvent}
    {work : Option Work} (hn : nb.toNat = n) :
    Completes s { ((s.during c f w).rxTake es).noFrame code stage nb with work := work }
      (.noFrame code stage n, c.i + 1) := by
  subst hn
  exact completes_now rfl ⟨rfl, rfl, rfl, rfl, rfl⟩ ⟨rfl, rfl, rfl, resStatusWord_noFrame code stage nb⟩

/-! ### One event at a stage (spec R137) -/

/-- The byte has been taken already: no state's rule touches the RX input. -/
theorem byteRule_rx (b : Byte) : (byteRule f b w s).rx = s.rx ∧ (byteRule f b w s).rxTaken = s.rxTaken := by
  cases f with
  | idle => exact ⟨rfl, rfl⟩
  | dStart | dType | dId | dData | dEnd =>
    simp only [byteRule, onStartByte, onTypeByte, onIdByte, onDataByte, onEndByte]
    split <;> exact ⟨rfl, rfl⟩

/-- The cursor behind one more byte. -/
def Cursor.next (c : Cursor) (es : List RxEvent) : Cursor := { evs := es, i := c.i + 1, nb := c.nb + 1 }

/-- W_NB counts the byte too (spec R137). -/
theorem wNb_next (hnb : w.wNb.toNat = c.nb) (hmax : c.nb + 1 < 32) (es : List RxEvent) :
    (w.wNb + 1#5).toNat = (c.next es).nb := by
  rw [toNat_add_one_of_lt (by omega), hnb, Cursor.next]

theorem nextByte_completes {k : Byte → Cursor → AttemptResult × Nat} (ha : s.agenda = []) (hf : f ≠ .idle)
    (hnb : w.wNb.toNat = c.nb)
    (hk : ∀ b es, Completes s (byteRule f b w ((s.during c f w).rxTake es)) (k b (c.next es))) :
    Completes s (s.during c f w) (nextByte (stageOf f) c k) := by
  obtain ⟨evs, i, nb⟩ := c
  match evs with
  | [] => exact completes_now rfl ⟨rfl, rfl, rfl, rfl, rfl⟩ ⟨hf, rfl, rfl, rfl, rfl⟩
  | .timeout :: es =>
    exact completes_of_step (step_of_timeout ha rfl hf rfl rfl) rfl rfl (completes_noFrame hnb)
  | .fault :: es =>
    exact completes_of_step (step_of_fault ha rfl hf rfl rfl) rfl rfl (completes_noFrame hnb)
  | .byte b :: es =>
    obtain ⟨hrx, htaken⟩ := byteRule_rx (f := f) (w := w) (s := (s.during ⟨.byte b :: es, i, nb⟩ f w).rxTake es) b
    exact completes_of_step (step_of_byte ha rfl hf rfl rfl) (congrArg (List.cons _) hrx.symm) htaken (hk b es)

/-! ### The fields (spec R141, R142) -/

/-- W_DATA with the bytes of a list written from entry `k` on (spec R142). -/
def putFrom (d : Vector Byte 15) (k : Nat) : List Byte → Vector Byte 15
  | [] => d
  | b :: bs => putFrom (putData d k b) (k + 1) bs

theorem putFrom_getElem (d : Vector Byte 15) (k : Nat) (bs : List Byte) (j : Nat) (hj : j < 15) :
    (putFrom d k bs)[j] = if j < k then d[j] else bs.getD (j - k) d[j] := by
  induction bs generalizing d k with
  | nil => simp [putFrom]
  | cons b bs ih =>
    rw [putFrom, ih, putData_getElem]
    rcases Nat.lt_trichotomy j k with h | h | h
    · simp [h, Nat.lt_succ_of_lt h, Nat.ne_of_lt h]
    · simp [h]
    · obtain ⟨m, rfl⟩ := Nat.exists_eq_add_of_lt h
      have hsub : k + m + 1 - k = m + 1 := by omega
      have hsub' : k + m + 1 - (k + 1) = m := by omega
      simp [hsub, hsub', Nat.not_lt_of_gt h, Nat.ne_of_gt h]

/-- The first entries of W_DATA are the bytes read (spec R142, R149). -/
theorem putFrom_take (d : Vector Byte 15) (bs : List Byte) (hlen : bs.length ≤ 15) :
    (putFrom d 0 bs).toList.take bs.length = bs := by
  apply List.ext_getElem
  · simpa using hlen
  · intro j h1 h2
    simp [putFrom_getElem, h2]

theorem idField_completes {n : Nat} {k : List Byte → Cursor → AttemptResult × Nat} (ha : s.agenda = [])
    (hnb : w.wNb.toNat = c.nb) (hmax : c.nb + (n + 1) < 32) (hcnt : w.wCnt.toNat + (n + 1) = w.wW)
    (hk : ∀ idb c' nb, idb.length = n + 1 → nb.toNat = c'.nb → c'.nb = c.nb + (n + 1) →
      Completes s (s.during c' (if w.wDlc = 0#4 then .dEnd else .dData)
        { w with wId := assembleFrom w.wId w.wCnt.toNat idb, wCnt := 0#4, wNb := nb }) (k idb c')) :
    Completes s (s.during c .dId w) (nextBytes 2#3 (n + 1) c k) := by
  induction n generalizing c w k with
  | zero =>
    refine nextByte_completes ha (by decide) hnb fun b es => ?_
    rw [byteRule, onIdByte, if_pos hcnt]
    exact hk [b] (c.next es) _ rfl (wNb_next hnb (by omega) es) rfl
  | succ n ih =>
    refine nextByte_completes ha (by decide) hnb fun b es => ?_
    have hwidth : w.wW ≤ 4 := idWidth_le_four w.wExt
    have hcnt' : (w.wCnt + 1#4).toNat = w.wCnt.toNat + 1 := toNat_add_one_of_lt (by omega)
    have hmore : w.wCnt.toNat + 1 ≠ w.wW := by omega
    rw [byteRule, onIdByte, if_neg hmore]
    refine ih (c := c.next es) (wNb_next hnb (by omega) es) ?_ ?_ fun idb c' nb hidb hc' hc'' => ?_
    · simp only [Cursor.next]; omega
    · simp only [hcnt', Work.wW, Work.wExt] at *; omega
    · have hlast := hk (b :: idb) c' nb (by simp [hidb]) hc' (by simp only [Cursor.next] at hc''; omega)
      simp only [hcnt']
      exact hlast

theorem dataField_completes {n : Nat} {k : List Byte → Cursor → AttemptResult × Nat} (ha : s.agenda = [])
    (hnb : w.wNb.toNat = c.nb) (hmax : c.nb + (n + 1) < 32) (hcnt : w.wCnt.toNat + (n + 1) = w.wDlc.toNat)
    (hk : ∀ data c' nb, data.length = n + 1 → nb.toNat = c'.nb → c'.nb = c.nb + (n + 1) →
      Completes s (s.during c' .dEnd { w with wData := putFrom w.wData w.wCnt.toNat data, wCnt := 0#4, wNb := nb })
        (k data c')) :
    Completes s (s.during c .dData w) (nextBytes 3#3 (n + 1) c k) := by
  induction n generalizing c w k with
  | zero =>
    refine nextByte_completes ha (by decide) hnb fun b es => ?_
    rw [byteRule, onDataByte, if_pos hcnt]
    exact hk [b] (c.next es) _ rfl (wNb_next hnb (by omega) es) rfl
  | succ n ih =>
    refine nextByte_completes ha (by decide) hnb fun b es => ?_
    have hdlc := w.wDlc.isLt
    have hcnt' : (w.wCnt + 1#4).toNat = w.wCnt.toNat + 1 := toNat_add_one_of_lt (by omega)
    have hmore : w.wCnt.toNat + 1 ≠ w.wDlc.toNat := by omega
    rw [byteRule, onDataByte, if_neg hmore]
    refine ih (c := c.next es) (wNb_next hnb (by omega) es) ?_ ?_ fun data c' nb hdata hc' hc'' => ?_
    · simp only [Cursor.next]; omega
    · simp only [hcnt', Work.wDlc] at *; omega
    · have hlast := hk (b :: data) c' nb (by simp [hdata]) hc' (by simp only [Cursor.next] at hc''; omega)
      simpa only [hcnt', putFrom] using hlast

/-- The payload, which is empty with dlc 0 (spec R141, R142). -/
theorem payload_completes {k : List Byte → Cursor → AttemptResult × Nat} (ha : s.agenda = [])
    (hnb : w.wNb.toNat = c.nb) (hmax : c.nb + w.wDlc.toNat < 32)
    (hk : ∀ data c' nb, data.length = w.wDlc.toNat → nb.toNat = c'.nb → c'.nb = c.nb + w.wDlc.toNat →
      Completes s (s.during c' .dEnd { w with wData := putFrom w.wData 0 data, wCnt := 0#4, wNb := nb }) (k data c')) :
    Completes s (s.during c (if w.wDlc = 0#4 then .dEnd else .dData) { w with wCnt := 0#4 })
      (nextBytes 3#3 w.wDlc.toNat c k) := by
  by_cases hdlc : w.wDlc = 0#4
  · rw [if_pos hdlc]
    rw [hdlc] at hk ⊢
    exact hk [] c w.wNb rfl hnb rfl
  · obtain ⟨n, hn⟩ := Nat.exists_eq_succ_of_ne_zero fun h => hdlc (BitVec.eq_of_toNat_eq h)
    rw [if_neg hdlc]
    rw [hn] at hk hmax ⊢
    exact dataField_completes ha hnb hmax ((Nat.zero_add _).trans hn.symm) hk

/-! ### The stages of one byte (spec R138, R139, R143) -/

theorem startByte_completes {k : Cursor → AttemptResult × Nat} (ha : s.agenda = []) (hnb : w.wNb.toNat = c.nb)
    (hmax : c.nb + 1 < 32)
    (hk : ∀ es, Completes s (s.during (c.next es) .dType { w with wNb := w.wNb + 1#5 }) (k (c.next es))) :
    Completes s (s.during c .dStart w) (nextByte 0#3 c fun b c =>
      if b ≠ startByte then (.noFrame .badStart 0#3 c.nb, c.i) else k c) := by
  refine nextByte_completes ha (by decide) hnb fun b es => ?_
  rw [byteRule, onStartByte]
  by_cases hb : b = startByte
  · rw [if_pos hb, if_neg (not_not_intro hb)]
    exact hk es
  · rw [if_neg hb, if_pos hb]
    exact completes_noFrame (wNb_next hnb hmax es)

theorem typeByte_completes {k : Byte → Cursor → AttemptResult × Nat} (ha : s.agenda = []) (hnb : w.wNb.toNat = c.nb)
    (hmax : c.nb + 1 < 32)
    (hk : ∀ t es, Completes s
      (s.during (c.next es) .dId { w with wType := t, wNb := w.wNb + 1#5, wCnt := 0#4 }) (k t (c.next es))) :
    Completes s (s.during c .dType w) (nextByte 1#3 c fun t c =>
      if s.policy = .reject ∧ dlcMax < (typeDlc t).toNat then (.noFrame .dlcRange 1#3 c.nb, c.i) else k t c) := by
  refine nextByte_completes ha (by decide) hnb fun t es => ?_
  rw [byteRule, onTypeByte, rxTake_policy, during_policy]
  by_cases hreject : s.policy = .reject ∧ dlcMax < (typeDlc t).toNat
  · rw [if_pos hreject, if_pos hreject]
    exact completes_noFrame (wNb_next hnb hmax es)
  · rw [if_neg hreject, if_neg hreject]
    exact hk t es

theorem endByte_completes {data : List Byte} (ha : s.agenda = []) (hnb : w.wNb.toNat = c.nb) (hmax : c.nb + 1 < 32)
    (hdata : w.wData.toList.take w.wDlc.toNat = data) :
    Completes s (s.during c .dEnd w) (nextByte 4#3 c fun e c =>
      if e ≠ endByte then (.noFrame .badEnd 4#3 c.nb, c.i)
      else (.frame w.wId w.wExt w.wRtr w.wDlc data w.wType c.nb, c.i)) := by
  subst hdata
  refine nextByte_completes ha (by decide) hnb fun e es => ?_
  have hnb' := wNb_next hnb hmax es
  rw [byteRule, onEndByte]
  by_cases he : e = endByte
  · rw [if_pos he, if_neg (not_not_intro he), ← hnb']
    exact completes_now rfl ⟨rfl, rfl, rfl, rfl, rfl⟩
      ⟨rfl, rfl, resStatusWord_frame _ _ _ _, _, rfl, rfl, capture_frame w _⟩
  · rw [if_neg he, if_pos he]
    exact completes_noFrame hnb'

/-! ### The whole attempt (spec R152) -/

/-- From the type byte on: the id field, the payload and the end byte. -/
theorem fields_completes (ha : s.agenda = []) (hnb : w.wNb.toNat = c.nb) (hmax : c.nb + 20 < 32) (hid : w.wId = 0#32)
    (hcnt : w.wCnt = 0#4) :
    Completes s (s.during c .dId w) (nextBytes 2#3 w.wW c fun idb c =>
      nextBytes 3#3 w.wDlc.toNat c fun data c => nextByte 4#3 c fun e c =>
        if e ≠ endByte then (.noFrame .badEnd 4#3 c.nb, c.i)
        else (.frame (assembleFrom 0#32 0 idb) w.wExt w.wRtr w.wDlc data w.wType c.nb, c.i)) := by
  have hwidth : w.wW ≤ 4 := idWidth_le_four w.wExt
  have hdlc : w.wDlc.toNat ≤ 15 := Nat.le_of_lt_succ w.wDlc.isLt
  obtain ⟨n, hn⟩ : ∃ n, w.wW = n + 1 := by rw [Work.wW]; cases w.wExt <;> exact ⟨_, rfl⟩
  rw [hn]
  refine idField_completes ha hnb (by omega) (by simpa [hcnt] using hn.symm) fun idb c₁ nb₁ hidb hnb₁ hc₁ => ?_
  rw [hid, hcnt]
  refine payload_completes (w := { w with wId := assembleFrom 0#32 0 idb, wNb := nb₁ }) ha hnb₁ ?_
    fun data c₂ nb₂ hdata hnb₂ hc₂ => ?_
  · show c₁.nb + w.wDlc.toNat < 32; omega
  · have htake : (putFrom w.wData 0 data).toList.take w.wDlc.toNat = data := by
      have hlen : data.length = w.wDlc.toNat := hdata
      rw [← hlen, putFrom_take w.wData data (by omega)]
    have hc : c₂.nb = c₁.nb + w.wDlc.toNat := hc₂
    exact endByte_completes ha hnb₂ (by omega) htake

/-- From DECODE's acceptance on (spec R136). -/
theorem decodeAttempt_completes (ha : s.agenda = []) :
    Completes s (s.during { evs := s.rx, i := 0, nb := 0 } .dStart clearedWork) (decodeAttempt s.policy s.rx) := by
  refine startByte_completes ha rfl (by simp) fun es => ?_
  refine typeByte_completes ha rfl (by simp [Cursor.next]) fun t es' => ?_
  exact fields_completes ha rfl (by simp [Cursor.next]) rfl rfl

/-- Settles O25: the acceptance step begins an attempt, and `decodeAttempt_completes` runs it. -/
theorem decoderStepsComposeIntoTheAttempt : Obligations.DecoderStepsComposeIntoTheAttempt := by
  intro s c cs ha hf hc ho
  obtain ⟨n, t, hrun, hrx, hn, htaken, ⟨hcmds, htx, henc, hpolicy, hseen⟩, hshows⟩ :=
    decodeAttempt_completes (s := { s with cmds := cs }) ha
  have hcount : n = (decodeAttempt s.policy s.rx).2 := Nat.add_left_cancel (hn.symm.trans htaken)
  rw [← hcount, Nat.add_comm 1 n, core_run_succ_of_step n (step_of_decode ha hf hc ho)]
  exact ⟨t, hrun, hrx, hn, hcmds, htx, henc, hpolicy, hseen, hshows⟩

end Sys2Proof.Machine
end

section
/-! SUPPORT. Attempts are one-shot (spec R144): two machines that differ in nothing an attempt may depend on run it in
step. -/

namespace Sys2Proof.Machine

variable {s s1 s2 : State} {f : Fsm} {w : Work}

/-- The two units are to act alone, on no command and the same RX input, under the same policy. -/
def SameInputs (s1 s2 : State) : Prop :=
  (s1.agenda = [] ∧ s2.agenda = []) ∧ (s1.cmds = [] ∧ s2.cmds = []) ∧ s1.policy = s2.policy ∧ s1.rx = s2.rx

/-- The two machines stand at the same place of the same attempt; once it has ended, with the same results but for the
timestamp (spec R34, R144). -/
structure Alike (s1 s2 : State) : Prop where
  inputs : SameInputs s1 s2
  fsm : s1.fsm = s2.fsm
  work : s1.work = s2.work
  started : s1.fsm ≠ .idle → s1.work ≠ none
  results : s1.fsm = .idle →
    s1.resStatus = s2.resStatus ∧ s1.res.map FrameRegs.untimed = s2.res.map FrameRegs.untimed

/-! ### What a unit step writes is the same in both -/

theorem alike_of_goesOn (hin : SameInputs s1 s2) (hf : f ≠ .idle) (w : Work) :
    Alike { s1 with fsm := f, work := some w } { s2 with fsm := f, work := some w } :=
  ⟨hin, rfl, rfl, fun _ => Option.some_ne_none w, fun h => absurd h hf⟩

theorem alike_noFrame (hin : SameInputs s1 s2) (hwork : s1.work = s2.work) (code : ResCode) (stage : BitVec 3)
    (nb : BitVec 5) : Alike (s1.noFrame code stage nb) (s2.noFrame code stage nb) :=
  ⟨hin, rfl, hwork, fun h => absurd rfl h, fun _ => ⟨rfl, rfl⟩⟩

theorem alike_acceptFrame (hin : SameInputs s1 s2) (hwork : s1.work = s2.work) (w : Work) :
    Alike (s1.acceptFrame w) (s2.acceptFrame w) :=
  ⟨hin, rfl, hwork, fun h => absurd rfl h, fun _ => ⟨rfl, rfl⟩⟩

theorem alike_onTypeByte (t : Byte) (hin : SameInputs s1 s2) : Alike (onTypeByte t w s1) (onTypeByte t w s2) := by
  have ⟨_, _, hpolicy, _⟩ := hin
  by_cases hreject : s1.policy = .reject ∧ dlcMax < (typeDlc t).toNat
  · rw [onTypeByte, if_pos hreject, onTypeByte, if_pos (hpolicy ▸ hreject)]
    exact ⟨hin, rfl, rfl, fun h => absurd rfl h, fun _ => ⟨rfl, rfl⟩⟩
  · rw [onTypeByte, if_neg hreject, onTypeByte, if_neg (hpolicy ▸ hreject)]
    exact alike_of_goesOn hin (by decide) _

theorem alike_byteRule (b : Byte) (h : Alike s1 s2) (hf : s1.fsm = f) (hne : f ≠ .idle) :
    Alike (byteRule f b w s1) (byteRule f b w s2) := by
  obtain ⟨hin, hfsm, hwork, -, -⟩ := h
  have hstays : ∀ w', Alike { s1 with work := some w' } { s2 with work := some w' } := fun w' =>
    ⟨hin, hfsm, rfl, fun _ => Option.some_ne_none w', fun hidle => absurd (hf.symm.trans hidle) hne⟩
  cases f with
  | idle => exact absurd rfl hne
  | dStart =>
    simp only [byteRule, onStartByte]
    split
    · exact alike_of_goesOn hin (by decide) _
    · exact alike_noFrame hin hwork _ _ _
  | dType => exact alike_onTypeByte b hin
  | dId =>
    simp only [byteRule, onIdByte]
    split
    · exact alike_of_goesOn hin (by split <;> decide) _
    · exact hstays _
  | dData =>
    simp only [byteRule, onDataByte]
    split
    · exact alike_of_goesOn hin (by decide) _
    · exact hstays _
  | dEnd =>
    simp only [byteRule, onEndByte]
    split
    · exact alike_acceptFrame hin hwork w
    · exact alike_noFrame hin hwork _ _ _

/-! ### Steps and runs -/

theorem step_of_noCommand (ha : s.agenda = []) (hf : s.fsm = .idle) (hc : s.cmds = []) : step s = .next s := by
  simp [step, nextMove, ha, unitStep, hf, commandStep, hc]

theorem step_of_wait (ha : s.agenda = []) (hf : s.fsm ≠ .idle) (hrx : s.rx = []) : step s = .next s := by
  simp [step, nextMove, ha, unitStep, hf, decoderStep, hrx]

theorem alike_rxTake (h : Alike s1 s2) (es : List RxEvent) : Alike (s1.rxTake es) (s2.rxTake es) := by
  obtain ⟨⟨halone, hnoCommand, hpolicy, -⟩, hfsm, hwork, hstarted, hresults⟩ := h
  exact ⟨⟨halone, hnoCommand, hpolicy, rfl⟩, hfsm, hwork, hstarted, hresults⟩

theorem alike_step (h : Alike s1 s2) : ∃ t1 t2, step s1 = .next t1 ∧ step s2 = .next t2 ∧ Alike t1 t2 := by
  have ⟨⟨⟨ha1, ha2⟩, ⟨hc1, hc2⟩, _, hrx⟩, hfsm, hwork, hstarted, _⟩ := h
  by_cases hf : s1.fsm = .idle
  · exact ⟨s1, s2, step_of_noCommand ha1 hf hc1, step_of_noCommand ha2 (hfsm ▸ hf) hc2, h⟩
  · obtain ⟨w, hw1⟩ := Option.ne_none_iff_exists'.mp (hstarted hf)
    have hw2 : s2.work = some w := hwork ▸ hw1
    cases hrx1 : s1.rx with
    | nil => exact ⟨s1, s2, step_of_wait ha1 hf hrx1, step_of_wait ha2 (hfsm ▸ hf) (hrx ▸ hrx1), h⟩
    | cons ev es =>
      have hrx2 : s2.rx = ev :: es := hrx ▸ hrx1
      have htake := alike_rxTake h es
      cases ev with
      | timeout =>
        exact ⟨_, _, step_of_timeout ha1 rfl hf hw1 hrx1, step_of_timeout ha2 hfsm.symm hf hw2 hrx2,
          alike_noFrame htake.inputs hwork _ _ _⟩
      | fault =>
        exact ⟨_, _, step_of_fault ha1 rfl hf hw1 hrx1, step_of_fault ha2 hfsm.symm hf hw2 hrx2,
          alike_noFrame htake.inputs hwork _ _ _⟩
      | byte b =>
        exact ⟨_, _, step_of_byte ha1 rfl hf hw1 hrx1, step_of_byte ha2 hfsm.symm hf hw2 hrx2,
          alike_byteRule b htake rfl hf⟩

theorem alike_run (h : Alike s1 s2) (k : Nat) :
    ∃ t1 t2, core.run k s1 = .next t1 ∧ core.run k s2 = .next t2 ∧ Alike t1 t2 := by
  induction k generalizing s1 s2 with
  | zero => exact ⟨s1, s2, rfl, rfl, h⟩
  | succ k ih =>
    obtain ⟨u1, u2, hstep1, hstep2, hu⟩ := alike_step h
    rw [core_run_succ_of_step k hstep1, core_run_succ_of_step k hstep2]
    exact ih hu

/-- Settles O29: the two acceptance steps leave machines that are alike, and no step parts them. -/
theorem attemptsCarryNothingOver : Obligations.AttemptsCarryNothingOver := by
  intro s1 s2 c1 c2 ha1 ha2 hf1 hf2 hc1 hc2 ho1 ho2 hpolicy hrx k
  have hstart : Alike { s1 with cmds := [], fsm := .dStart, work := some clearedWork }
      { s2 with cmds := [], fsm := .dStart, work := some clearedWork } :=
    alike_of_goesOn (s1 := { s1 with cmds := [] }) (s2 := { s2 with cmds := [] })
      ⟨⟨ha1, ha2⟩, ⟨rfl, rfl⟩, hpolicy, hrx⟩ (by decide) clearedWork
  obtain ⟨t1, t2, hrun1, hrun2, ht⟩ := alike_run hstart k
  rw [core_run_succ_of_step k (step_of_decode ha1 hf1 hc1 ho1),
    core_run_succ_of_step k (step_of_decode ha2 hf2 hc2 ho2)]
  obtain ⟨-, -, -, hrx'⟩ := ht.inputs
  exact ⟨t1, t2, hrun1, hrun2, ht.fsm, ht.work, hrx', ht.results⟩

end Sys2Proof.Machine
end

section
/-! SUPPORT. The reset step (spec R195, R198). -/

namespace Sys2Proof.Machine

variable {s : State} {ms : List Move}

theorem step_of_reset (ha : s.agenda = .reset :: ms) : step s = .next (State.resetUnit { s with agenda := ms }) := by
  simp [step, nextMove, ha, move]

/-- Settles O34: `resetUnit` names the registers that change, and IDLE is the state with CMD_READY 1 (R23). -/
theorem resetStepTouchesOnlyTheCodec : Obligations.ResetStepTouchesOnlyTheCodec :=
  fun _ _ ha => ⟨step_of_reset ha, rfl⟩

end Sys2Proof.Machine
end

section
/-! SUPPORT. Garbage on the RX input (spec R205): DECODEs that skip it byte by byte. -/

namespace Sys2Proof.Machine

variable {s : State} {c : Command} {cs : List Command} {b : Byte} {es : List RxEvent}

/-- The codec behind an attempt that its first byte has ended with BAD_START, `cs` and `es` being what still waits (spec
R138, R151). -/
def State.afterBadStart (s : State) (cs : List Command) (es : List RxEvent) : State :=
  { s with
    fsm := .idle, work := some clearedWork, resStatus := 0x0103#16, res := none, cmds := cs, rx := es
    rxTaken := s.rxTaken + 1 }

/-- A DECODE and a byte other than START are two steps: the acceptance and the attempt's end. -/
theorem run_badStart (k : Nat) (ha : s.agenda = []) (hf : s.fsm = .idle) (hc : s.cmds = c :: cs) (ho : c.op = opDecode)
    (hrx : s.rx = .byte b :: es) (hb : b ≠ startByte) : core.run (k + 2) s = core.run k (s.afterBadStart cs es) := by
  have haccept := step_of_decode ha hf hc ho
  obtain ⟨-, hend⟩ := startStateRule { s with cmds := cs, fsm := .dStart, work := some clearedWork } clearedWork b es
    ha rfl rfl hrx
  rw [core_run_succ_of_step (k + 1) haccept, core_run_succ_of_step k (hend hb)]
  rfl

/-- By induction on the garbage. The last clause is the obligation's made inductive: an earlier attempt's BAD_START stands
until a later one writes the same. -/
theorem run_garbage {garbage : List Byte} {ds : List Command} (ha : s.agenda = []) (hf : s.fsm = .idle)
    (hg : ∀ b ∈ garbage, b ≠ startByte) (hds : ∀ d ∈ ds, d.op = opDecode) (hlen : ds.length = garbage.length)
    (hc : s.cmds = ds ++ cs) (hrx : s.rx = garbage.map .byte ++ es) :
    ∃ t, core.run (2 * garbage.length) s = .next t ∧ t.fsm = .idle ∧ t.cmds = cs ∧ t.rx = es ∧
      t.rxTaken = s.rxTaken + garbage.length ∧ t.tx = s.tx ∧ t.encStatus = s.encStatus ∧
      (garbage ≠ [] ∨ s.resStatus = 0x0103#16 ∧ s.res = none → t.resStatus = 0x0103#16 ∧ t.res = none) := by
  induction garbage generalizing s ds with
  | nil =>
    obtain rfl := List.eq_nil_of_length_eq_zero hlen
    exact ⟨s, rfl, hf, hc, hrx, rfl, rfl, rfl, fun h => h.resolve_left (absurd rfl)⟩
  | cons b garbage ih =>
    obtain ⟨d, ds, rfl⟩ := List.exists_cons_of_length_eq_add_one hlen
    obtain ⟨hb, hg⟩ := List.forall_mem_cons.mp hg
    obtain ⟨hd, hds⟩ := List.forall_mem_cons.mp hds
    obtain ⟨t, hrun, hidle, hcmds, hrest, htaken, htx, henc, hres⟩ :=
      ih (s := s.afterBadStart (ds ++ cs) (garbage.map .byte ++ es)) ha rfl hg hds (Nat.succ.inj hlen) rfl rfl
    have hcount : t.rxTaken = s.rxTaken + 1 + garbage.length := htaken
    rw [List.length_cons, Nat.mul_succ, run_badStart _ ha hf hc hd hrx hb]
    exact ⟨t, hrun, hidle, hcmds, hrest, by omega, htx, henc, fun _ => hres (.inr ⟨rfl, rfl⟩)⟩

/-- Settles O31: `run_garbage` without the results an earlier attempt may have left. -/
theorem garbageCostsOneDecodePerByte : Obligations.GarbageCostsOneDecodePerByte := by
  intro s garbage ds cs es ha hf hg hds hlen hc hrx
  obtain ⟨t, hrun, hidle, hcmds, hrest, htaken, htx, henc, hres⟩ := run_garbage ha hf hg hds hlen hc hrx
  exact ⟨t, hrun, hidle, hcmds, hrest, htaken, htx, henc, fun hne => hres (.inl hne)⟩

end Sys2Proof.Machine
end

section
/-! SUPPORT. The two encodings back and forth (spec R75, R80, R81, R86). -/

namespace Sys2Proof.Machine

theorem decodeWord_encode {i : Instr} (h : i.wf = true) : decodeWord (encode i) = i := by
  cases i with
  | encode id ext rtr dlc plen pdata =>
    have hlen : pdata.length = 8 := by simpa [Instr.wf] using h
    rw [encode, decodeWord, decodeCommand_of_opEncode rfl, pdataField_toList hlen]
  | decode | reservedCmd00 | reservedCmd11 => rfl
  | wireStdData hi dlc | wireStdRemote hi dlc | wireExtData hi dlc | wireExtRemote hi dlc =>
    exact decodeTypeByte_typeByteOf hi _ _ dlc

theorem encode_decodeTypeByte (t : Byte) : encode (decodeTypeByte t) = .typeByte t := by
  have ht := typeByteOf_fields t
  unfold decodeTypeByte
  split <;> rename_i hext hrtr <;> rw [hext, hrtr] at ht <;> rw [encode, ht]

theorem encode_decodeCommand {c : Command} (ho : c.op = opEncode) : encode (decodeCommand c) = .command c := by
  rw [decodeCommand_of_opEncode ho, encode, pdataField_of_toList, ← ho]

theorem decodeWord_wf (w : InstrWord) : (decodeWord w).wf = true := by
  cases w with
  | command c =>
    rw [decodeWord]
    rcases decodeCommand_cases c with ⟨-, hd⟩ | ⟨-, hd⟩ | ⟨-, hd⟩ | ⟨-, hd⟩ <;> rw [hd] <;> simp [Instr.wf]
  | typeByte t =>
    rw [decodeWord, decodeTypeByte]
    split <;> rfl

/-- Settles O6: one lemma per direction and encoding. -/
theorem decodeOfEncodeIsTheInstruction : Obligations.DecodeOfEncodeIsTheInstruction :=
  ⟨fun _ => decodeWord_encode, encode_decodeTypeByte, fun _ => encode_decodeCommand, decodeWord_wf⟩

/-- Settles O5: the type bytes are evaluated, and a record's row does not depend on its operand fields. -/
theorem specWordsDecode : Obligations.SpecWordsDecode := by
  refine ⟨by decide, by decide, by decide, by decide, by decide, by decide, by decide, by decide,
    fun _ => decodeCommand_of_opDecode, fun c ho => ?_, fun c ho => ?_⟩
  · simp [decodeCommand, ho, opEncode, opDecode]
  · simp [decodeCommand, ho, opEncode, opDecode]

end Sys2Proof.Machine
end

section
/-! SUPPORT. The round trip (spec R112, R149, R152; 95_test_vectors.md PR1): what ENCODE emits for a valid frame, and what an
attempt reads of it. -/

namespace Sys2Proof.Machine

variable {f : CanFrame}

/-! ### An attempt on a wire frame -/

theorem nextBytes_bytes (stage : BitVec 3) (bs : List Byte) (es : List RxEvent) (i nb : Nat)
    (k : List Byte → Cursor → AttemptResult × Nat) :
    nextBytes stage bs.length { evs := bs.map .byte ++ es, i := i, nb := nb } k =
      k bs { evs := es, i := i + bs.length, nb := nb + bs.length } := by
  induction bs generalizing i nb k with
  | nil => rfl
  | cons b bs ih =>
    rw [List.length_cons, nextBytes, List.map_cons, List.cons_append, nextByte_byte, ih, Nat.add_right_comm,
      Nat.add_right_comm nb, Nat.add_assoc, Nat.add_assoc nb]

/-- An attempt whose events are the bytes of one frame that the policy lets through reads all of them (spec R152). -/
theorem decodeAttempt_of_frame {p : DlcPolicy} {t : Byte} {idb data : List Byte}
    (hp : ¬(p = .reject ∧ dlcMax < (typeDlc t).toNat)) (hid : idb.length = idWidth (typeExt t))
    (hdata : data.length = (typeDlc t).toNat) :
    decodeAttempt p (([startByte, t] ++ idb ++ data ++ [endByte]).map .byte) =
      (.frame (assembleFrom 0#32 0 idb) (typeExt t) (typeRtr t) (typeDlc t) data t
        ([startByte, t] ++ idb ++ data ++ [endByte]).length, ([startByte, t] ++ idb ++ data ++ [endByte]).length) := by
  have hevs : ([startByte, t] ++ idb ++ data ++ [endByte]).map RxEvent.byte =
      .byte startByte :: .byte t :: (idb.map .byte ++ (data.map .byte ++ [.byte endByte])) := by simp
  have hlen : ([startByte, t] ++ idb ++ data ++ [endByte]).length = 0 + 1 + 1 + idb.length + data.length + 1 := by
    simp; omega
  rw [hevs, hlen, decodeAttempt, nextByte_byte, if_neg (not_not_intro rfl), nextByte_byte, if_neg hp, ← hid,
    nextBytes_bytes, ← hdata, nextBytes_bytes, nextByte_byte, if_neg (not_not_intro rfl)]

/-! ### A valid CAN frame (spec R15) -/

theorem canFrame_wf_iff :
    f.wf = true ↔ f.dlc.toNat ≤ 8 ∧ f.payload.length = f.dlc.toNat ∧ tooWide f.id f.ext = false := by
  have hid : f.idFits = true ↔ tooWide f.id f.ext = false := by
    cases h : f.ext <;> simp [CanFrame.idFits, tooWide, h]
  rw [CanFrame.wf, Bool.and_eq_true, Bool.and_eq_true, hid, decide_eq_true_iff, beq_iff_eq, and_assoc]

/-- A valid frame's command carries its length, so the check passes (spec R85, R111). -/
theorem exec_sendFrame {s : State} (hf : s.fsm = .idle) (hwf : f.wf = true) :
    exec (sendFrame f) s =
      .next (s.encAccept (wireFrame f.id f.ext f.rtr f.dlc (pdataField f.payload).toList)) := by
  obtain ⟨hdlc, hlen, hid⟩ := canFrame_wf_iff.mp hwf
  have hplen : BitVec.ofNat 4 f.payload.length = f.dlc := by rw [hlen, BitVec.ofNat_toNat, BitVec.setWidth_eq]
  refine exec_encode_of_pass hf ?_
  simp [EncFlags.any, encCheck, hplen, hid, hdlc]

theorem pdataField_take {l : List Byte} (h : l.length ≤ 8) : (pdataField l).toList.take l.length = l := by
  apply List.ext_getElem
  · simpa using h
  · intro i h1 h2
    simp [pdataField, List.getElem?_eq_getElem h2]

theorem assembleFrom_idBytes {id : BitVec 32} {ext : Bool} (h : tooWide id ext = false) :
    assembleFrom 0#32 0 (idBytes id ext) = id := by
  cases ext with
  | true => exact assemble_ext id
  | false =>
    have hstd : id.toNat < 0x800 := by simpa [tooWide] using h
    exact assemble_std id (by omega)

/-- The attempt on a valid frame's bytes delivers its fields (PR1). -/
theorem decodeAttempt_wireFrame (p : DlcPolicy) (hwf : f.wf = true) {bytes : List Byte}
    (hbytes : bytes = wireFrame f.id f.ext f.rtr f.dlc (pdataField f.payload).toList) :
    decodeAttempt p (bytes.map .byte) =
      (.frame f.id f.ext f.rtr f.dlc f.payload (emitType f.ext f.rtr f.dlc) bytes.length, bytes.length) := by
  obtain ⟨hdlc, hlen, hid⟩ := canFrame_wf_iff.mp hwf
  have htake : (pdataField f.payload).toList.take f.dlc.toNat = f.payload := hlen ▸ pdataField_take (hlen ▸ hdlc)
  have hattempt := decodeAttempt_of_frame (p := p) (t := emitType f.ext f.rtr f.dlc) (idb := idBytes f.id f.ext)
    (data := f.payload)
  rw [emitType_eq_typeByteOf, typeExt_typeByteOf, typeRtr_typeByteOf, typeDlc_typeByteOf, assembleFrom_idBytes hid,
    ← emitType_eq_typeByteOf] at hattempt
  rw [hbytes, wireFrame, htake]
  exact hattempt (fun h => absurd h.2 (Nat.not_lt.mpr hdlc)) (idBytes_length _ _) hlen

/-- RES_STATUS of a delivered frame, read field by field (spec R28, R150). -/
theorem resStatus_of_frame {w : BitVec 16} {nb : Nat} {dlc : BitVec 4} {id : BitVec 32} {ext : Bool} (hnb : nb < 32)
    (hw : w = BitVec.ofNat 16 (1 + 16 * 4 + 128 + 256 * nb + (if 8 < dlc.toNat then 8192 else 0) +
      (if (if ext then 0x20000000 else 0x800) ≤ id.toNat then 16384 else 0))) :
    resValid w = true ∧ resDlcGt8 w = decide (dlcMax < dlc.toNat) ∧ resIdWide w = tooWide id ext := by
  have hword := resStatusWord_frame (BitVec.ofNat 5 nb) dlc id ext
  rw [BitVec.toNat_ofNat, Nat.mod_eq_of_lt hnb, ← hw] at hword
  subst hword
  exact ⟨resValid_resStatusWord .., resDlcGt8_resStatusWord .., resIdWide_resStatusWord ..⟩

/-- Settles O32: the attempt on the emitted bytes is `decodeAttempt_wireFrame`, and O25 makes it the unit's steps. -/
theorem encodedFrameDecodesToItself : Obligations.EncodedFrameDecodesToItself := by
  intro s f ha hf hwf
  obtain ⟨hdlc, -, hid⟩ := canFrame_wf_iff.mp hwf
  obtain ⟨bytes, hbytes⟩ : ∃ bytes, bytes = wireFrame f.id f.ext f.rtr f.dlc (pdataField f.payload).toList := ⟨_, rfl⟩
  have hlen : bytes.length = frameLength f.ext f.dlc :=
    hbytes ▸ wireFrame_length _ _ _ _ _ ((pdataField_toList_length f.payload).symm ▸ hdlc)
  have hnb : bytes.length < 32 := by
    have hwidth := idWidth_le_four f.ext
    rw [hlen, frameLength]; omega
  have htype : bytes[1]? = some (emitType f.ext f.rtr f.dlc) := by rw [hbytes]; rfl
  have hattempt := decodeAttempt_wireFrame s.policy hwf hbytes
  have hencode := exec_sendFrame hf hwf
  rw [← hbytes] at hencode
  obtain ⟨u, hrun, hrx, -, -, -, -, -, -, hshows⟩ := decoderStepsComposeIntoTheAttempt
    { s.encAccept bytes with cmds := [bareCommand 0b10#2], rx := bytes.map .byte } _ [] ha hf rfl rfl
  simp only [encAccept_policy, hattempt] at hrun hrx hshows
  obtain ⟨hidle, -, hstatus, r, hres, hrtype, hframe⟩ := hshows
  obtain ⟨hvalid, hgt8, hwide⟩ := resStatus_of_frame hnb hstatus
  refine ⟨_, bytes, hencode, rfl, u, r, hrun, hidle, ?_, hres, hvalid, ?_, hwide.trans hid, htype.trans (hrtype ▸ rfl),
    hframe⟩
  · rw [hrx, List.drop_eq_nil_of_le (by simp)]
  · rw [hgt8, decide_eq_false (Nat.not_lt.mpr hdlc)]

end Sys2Proof.Machine
end

section
/-! SUPPORT. The codec's invariant, taken apart, and what each effect of a step does to it (spec R24, R27 to R33, R147). -/

namespace Sys2Proof.Machine

variable {s t : State} {w : Work} {es : List RxEvent} {p : DlcPolicy}

theorem inv_iff : s.inv = true ↔
    encStatusOk s.encStatus = true ∧ resultsOk s.policy s.resStatus s.res = true ∧ workOk s.policy s.fsm s.work = true := by
  rw [State.inv, Bool.and_eq_true, Bool.and_eq_true, and_assoc]

/-! ### The working registers in the fields' states (spec R24) -/

theorem workOk_dId_iff : workOk p .dId (some w) = true ↔
    w.wCnt.toNat < w.wW ∧ w.wNb.toNat = 2 + w.wCnt.toNat ∧ w.wId.toNat < 2 ^ (8 * w.wCnt.toNat) ∧
      policyAllows p w.wDlc = true := by
  simp [workOk, and_assoc]

theorem workOk_dData_iff : workOk p .dData (some w) = true ↔
    w.wCnt.toNat < w.wDlc.toNat ∧ w.wNb.toNat = 2 + w.wW + w.wCnt.toNat ∧ w.wId.toNat < 2 ^ (8 * w.wW) ∧
      policyAllows p w.wDlc = true := by
  simp [workOk, and_assoc]

theorem workOk_dEnd_iff : workOk p .dEnd (some w) = true ↔
    w.wCnt = 0#4 ∧ w.wNb.toNat = 2 + w.wW + w.wDlc.toNat ∧ w.wId.toNat < 2 ^ (8 * w.wW) ∧
      policyAllows p w.wDlc = true := by
  simp [workOk, and_assoc]

theorem wW_bounds (w : Work) : 2 ≤ w.wW ∧ w.wW ≤ 4 := by
  rw [Work.wW]; cases w.wExt <;> decide

/-! ### ENC_STATUS (spec R27) -/

theorem encStatusOk_ok {n : BitVec 4} (h : 5 ≤ n.toNat) :
    encStatusOk (encStatusWord resultOk { errDlc := false, errLen := false, errId := false } n) = true := by
  simp [encStatusOk, EncFlags.any, h]

theorem encStatusOk_reject {f : EncFlags} (h : f.any = true) : encStatusOk (encStatusWord resultReject f 0#4) = true := by
  simp [encStatusOk, h, resultOk, resultReject]

/-- The frame of a command that passes the check has 5 to 15 bytes (spec R72, R111). -/
theorem encStatusOk_wireFrame {c : Command} (hx : (encCheck c.id c.ext c.dlc c.plen).any = false) :
    encStatusOk (encStatusWord resultOk { errDlc := false, errLen := false, errId := false }
      (BitVec.ofNat 4 (wireFrame c.id c.ext c.rtr c.dlc c.pdata.toList).length)) = true := by
  have hdlc : c.dlc.toNat ≤ 8 := by
    by_contra hgt
    simp [encCheck_any_iff.mpr (.inl (Nat.lt_of_not_le hgt))] at hx
  have hlen : (wireFrame c.id c.ext c.rtr c.dlc c.pdata.toList).length = frameLength c.ext c.dlc :=
    wireFrame_length _ _ _ _ _ (by simpa using hdlc)
  refine encStatusOk_ok ?_
  have hwidth : 2 ≤ idWidth c.ext ∧ idWidth c.ext ≤ 4 := by cases c.ext <;> decide
  rw [hlen, frameLength, BitVec.toNat_ofNat, Nat.mod_eq_of_lt (by omega)]
  omega

/-! ### The outcomes of an attempt (spec R147, R149 to R151) -/

/-- A no-frame outcome with a count of spec R147 is legal, whatever is written to the working registers (spec R25). -/
theorem inv_noFrame {code : ResCode} {stage : BitVec 3} {nb : BitVec 5} {work : Option Work}
    (henc : encStatusOk s.encStatus = true) (hcount : noFrameCountOk s.policy (codeBits code) stage nb.toNat = true) :
    State.inv { s.noFrame code stage nb with work := work } = true := by
  refine inv_iff.mpr ⟨henc, ?_, rfl⟩
  simp [resultsOk, hcount]

/-- The byte counts of an attempt that a Timeout or a Fault cuts (spec R147). -/
theorem noFrameCountOk_cut {f : Fsm} {code : ResCode} (hcode : code = .timeout ∨ code = .transport) (hf : f ≠ .idle)
    (hwork : workOk p f (some w) = true) : noFrameCountOk p (codeBits code) (stageOf f) w.wNb.toNat = true := by
  have hwidth := wW_bounds w
  have hdlc := w.wDlc.isLt
  have hrow : noFrameCountOk p (codeBits code) (stageOf f) w.wNb.toNat =
      noFrameCountOk p (codeBits .timeout) (stageOf f) w.wNb.toNat := by
    rcases hcode with rfl | rfl <;> rfl
  rw [hrow]
  cases f with
  | idle => exact absurd rfl hf
  | dStart | dType =>
    obtain rfl := eq_of_beq hwork
    cases p <;> decide
  | dId =>
    obtain ⟨hcnt, hnb, -, -⟩ := workOk_dId_iff.mp hwork
    simp [noFrameCountOk, codeBits, stageOf, fsmBits]
    omega
  | dData =>
    obtain ⟨hcnt, hnb, -, -⟩ := workOk_dData_iff.mp hwork
    simp [noFrameCountOk, codeBits, stageOf, fsmBits]
    omega
  | dEnd =>
    obtain ⟨hcnt, hnb, -, -⟩ := workOk_dEnd_iff.mp hwork
    simp [noFrameCountOk, codeBits, stageOf, fsmBits]
    omega

theorem inv_cut {code : ResCode} (hcode : code = .timeout ∨ code = .transport) (hinv : s.inv = true)
    (hf : s.fsm ≠ .idle) (hw : s.work = some w) :
    State.inv ((s.rxTake es).noFrame code (stageOf s.fsm) w.wNb) = true := by
  obtain ⟨henc, -, hwork⟩ := inv_iff.mp hinv
  rw [hw] at hwork
  exact inv_noFrame henc (noFrameCountOk_cut hcode hf hwork)

/-- In D_END the working registers hold a whole frame, and `accept()` writes what it is (spec R149, R150). -/
theorem inv_acceptFrame (henc : encStatusOk s.encStatus = true) (hwork : workOk s.policy .dEnd (some w) = true) :
    State.inv (s.acceptFrame w) = true := by
  obtain ⟨-, hnb, hid, hpolicy⟩ := workOk_dEnd_iff.mp hwork
  have hwidth := wW_bounds w
  have hdlc := w.wDlc.isLt
  have hcount : w.wNb + 1#5 = BitVec.ofNat 5 (frameLength w.wExt w.wDlc) := by
    apply BitVec.eq_of_toNat_eq
    have hlen : frameLength w.wExt w.wDlc = 3 + w.wW + w.wDlc.toNat := rfl
    rw [toNat_add_one_of_lt (by omega), BitVec.toNat_ofNat, Nat.mod_eq_of_lt (by omega)]
    omega
  refine inv_iff.mpr ⟨henc, ?_, rfl⟩
  have hdata : ∀ i : Fin 15, ((captureData w.wData w.wDlc)[i.val]).isSome = decide (i.val < w.wDlc.toNat) := by
    intro i
    rw [captureData_getElem _ _ _ i.isLt]
    by_cases h : i.val < w.wDlc.toNat <;> simp [h]
  simp only [acceptFrame_policy, acceptFrame_resStatus, acceptFrame_res, resultsOk, capture, Bool.and_eq_true,
    beq_iff_eq, decide_eq_true_eq, List.all_eq_true]
  exact ⟨⟨⟨⟨⟨⟨by rw [hcount], rfl⟩, rfl⟩, rfl⟩, hid⟩, hpolicy⟩, fun i _ => hdata i⟩

/-! ### The byte rules (spec R138 to R143) -/

/-- A step that leaves the status words and the results alone is judged by its working registers. -/
theorem inv_of_work {f : Fsm} {work : Option Work} (hinv : s.inv = true) (hwork : workOk s.policy f work = true) :
    State.inv { s with fsm := f, work := work } = true := by
  obtain ⟨henc, hres, -⟩ := inv_iff.mp hinv
  exact inv_iff.mpr ⟨henc, hres, hwork⟩

theorem inv_onStartByte (b : Byte) (hinv : s.inv = true) (hf : s.fsm = .dStart) (hw : s.work = some w) :
    (onStartByte b w s).inv = true := by
  obtain ⟨henc, -, hwork⟩ := inv_iff.mp hinv
  rw [hf, hw] at hwork
  obtain rfl : w = clearedWork := eq_of_beq hwork
  unfold onStartByte
  split
  case isTrue => exact inv_of_work hinv rfl
  case isFalse => exact inv_noFrame henc (by cases s.policy <;> decide)

theorem policyAllows_of_not_reject {dlc : BitVec 4} (h : ¬(p = .reject ∧ dlcMax < dlc.toNat)) :
    policyAllows p dlc = true := by
  cases p with
  | pass => rfl
  | reject => simpa [policyAllows] using h

theorem inv_onTypeByte (b : Byte) (hinv : s.inv = true) (hf : s.fsm = .dType) (hw : s.work = some w) :
    (onTypeByte b w s).inv = true := by
  obtain ⟨henc, -, hwork⟩ := inv_iff.mp hinv
  rw [hf, hw] at hwork
  obtain rfl : w = { clearedWork with wNb := 1#5 } := eq_of_beq hwork
  unfold onTypeByte
  split
  case isTrue hreject => exact inv_noFrame henc (by rw [hreject.1]; decide)
  case isFalse hpass =>
    have hpolicy := policyAllows_of_not_reject hpass
    refine inv_of_work hinv ?_
    have hwidth : 0 < idWidth (typeExt b) := by cases typeExt b <;> decide
    simp [workOk, Work.wW, Work.wExt, Work.wDlc, clearedWork, hpolicy, hwidth]

/-- An id of `k` bytes with byte `k` placed has `k + 1` (spec R56). -/
theorem placeIdByte_lt {id : BitVec 32} {k : Nat} (b : Byte) (hid : id.toNat < 2 ^ (8 * k)) (hk : k < 4) :
    (placeIdByte id b k).toNat < 2 ^ (8 * (k + 1)) := by
  have hb := b.isLt
  rw [placeIdByte_toNat b hid hk, Nat.mul_succ, Nat.pow_add]
  nlinarith

theorem inv_onIdByte (b : Byte) (hinv : s.inv = true) (hf : s.fsm = .dId) (hw : s.work = some w) :
    (onIdByte b w s).inv = true := by
  obtain ⟨-, -, hwork⟩ := inv_iff.mp hinv
  rw [hf, hw] at hwork
  obtain ⟨hcnt, hnb, hid, hpolicy⟩ := workOk_dId_iff.mp hwork
  have hwidth := wW_bounds w
  have hnb' : (w.wNb + 1#5).toNat = w.wNb.toNat + 1 := toNat_add_one_of_lt (by omega)
  have hid' := placeIdByte_lt b hid (by omega)
  unfold onIdByte
  split
  case isTrue hlast =>
    rw [hlast] at hid'
    have hnbLast : (w.wNb + 1#5).toNat = 2 + w.wW := by omega
    refine inv_of_work hinv ?_
    split
    case isTrue hdlc =>
      have hdlc' : w.wDlc.toNat = 0 := congrArg BitVec.toNat hdlc
      exact workOk_dEnd_iff.mpr ⟨rfl, hnbLast.trans (congrArg (2 + w.wW + ·) hdlc'.symm), hid', hpolicy⟩
    case isFalse hdlc =>
      have hpos : 0 < w.wDlc.toNat := Nat.pos_of_ne_zero fun h => hdlc (BitVec.eq_of_toNat_eq h)
      exact workOk_dData_iff.mpr ⟨hpos, hnbLast, hid', hpolicy⟩
  case isFalse hmore =>
    have hcnt' : (w.wCnt + 1#4).toNat = w.wCnt.toNat + 1 := toNat_add_one_of_lt (by omega)
    refine inv_of_work hinv ?_
    rw [hf, workOk_dId_iff]
    simp only [hcnt', hnb']
    exact ⟨Nat.lt_of_le_of_ne hcnt hmore, by omega, hid', hpolicy⟩

theorem inv_onDataByte (b : Byte) (hinv : s.inv = true) (hf : s.fsm = .dData) (hw : s.work = some w) :
    (onDataByte b w s).inv = true := by
  obtain ⟨-, -, hwork⟩ := inv_iff.mp hinv
  rw [hf, hw] at hwork
  obtain ⟨hcnt, hnb, hid, hpolicy⟩ := workOk_dData_iff.mp hwork
  have hwidth := wW_bounds w
  have hdlc := w.wDlc.isLt
  have hnb' : (w.wNb + 1#5).toNat = w.wNb.toNat + 1 := toNat_add_one_of_lt (by omega)
  unfold onDataByte
  split
  case isTrue hlast =>
    have hnbLast : (w.wNb + 1#5).toNat = 2 + w.wW + w.wDlc.toNat := by omega
    exact inv_of_work hinv (workOk_dEnd_iff.mpr ⟨rfl, hnbLast, hid, hpolicy⟩)
  case isFalse hmore =>
    have hcnt' : (w.wCnt + 1#4).toNat = w.wCnt.toNat + 1 := toNat_add_one_of_lt (by omega)
    refine inv_of_work hinv ?_
    rw [hf, workOk_dData_iff]
    simp only [hcnt', hnb']
    exact ⟨Nat.lt_of_le_of_ne hcnt hmore, hnb ▸ rfl, hid, hpolicy⟩

theorem inv_onEndByte (b : Byte) (hinv : s.inv = true) (hf : s.fsm = .dEnd) (hw : s.work = some w) :
    (onEndByte b w s).inv = true := by
  obtain ⟨henc, -, hwork⟩ := inv_iff.mp hinv
  rw [hf, hw] at hwork
  unfold onEndByte
  split
  case isTrue => exact inv_acceptFrame henc hwork
  case isFalse =>
    obtain ⟨-, hnb, -, -⟩ := workOk_dEnd_iff.mp hwork
    have hwidth := wW_bounds w
    have hdlc := w.wDlc.isLt
    have hnb' : (w.wNb + 1#5).toNat = w.wNb.toNat + 1 := toNat_add_one_of_lt (by omega)
    refine inv_noFrame henc ?_
    simp [noFrameCountOk, codeBits, stageOf, fsmBits, hnb', hnb]
    omega

/-! ### Every step (spec R97, R99, R104) -/

theorem inv_of_unitEffect (hinv : s.inv = true) (h : UnitEffect s t) : t.inv = true := by
  obtain ⟨henc, hres, hwork⟩ := inv_iff.mp hinv
  cases h with
  | noCommand | wait => exact hinv
  | encReject hf hc ho hx => exact inv_iff.mpr ⟨encStatusOk_reject hx, hres, hwork⟩
  | encAccept hf hc ho hx => exact inv_iff.mpr ⟨encStatusOk_wireFrame hx, hres, hwork⟩
  | decode => exact inv_iff.mpr ⟨henc, hres, rfl⟩
  | startByte hf hr hw => exact inv_onStartByte (s := s.rxTake _) _ hinv hf hw
  | typeByte hf hr hw => exact inv_onTypeByte (s := s.rxTake _) _ hinv hf hw
  | idByte hf hr hw => exact inv_onIdByte (s := s.rxTake _) _ hinv hf hw
  | dataByte hf hr hw => exact inv_onDataByte (s := s.rxTake _) _ hinv hf hw
  | endByte hf hr hw => exact inv_onEndByte (s := s.rxTake _) _ hinv hf hw
  | timeout hf hr hw => exact inv_cut (.inl rfl) hinv hf hw
  | fault hf hr hw => exact inv_cut (.inr rfl) hinv hf hw

theorem resultsOk_reset (p : DlcPolicy) : resultsOk p 0x0000#16 none = true := by
  cases p <;> decide

theorem inv_of_otherEffect {m : Move} (hinv : s.inv = true) (h : OtherEffect s m t) : t.inv = true := by
  cases h with
  | deliver | issue | read => exact hinv
  | reset => exact inv_iff.mpr ⟨(by decide : encStatusOk 0x0000#16 = true), resultsOk_reset s.policy, rfl⟩

/-- Settles O35: the reset state's fields, and the fields of its two status words. -/
theorem resetStateOfTheSpec : Obligations.ResetStateOfTheSpec := by
  unfold Obligations.ResetStateOfTheSpec
  decide

/-- Settles O36: both status words are 0, no frame is held, and IDLE claims nothing of the working registers. -/
theorem invariantHoldsAtReset : Obligations.InvariantHoldsAtReset :=
  inv_iff.mpr ⟨(by decide : encStatusOk 0x0000#16 = true), resultsOk_reset _, rfl⟩

/-- Settles O37: each effect of a unit step, and of another agent's move, keeps the invariant. -/
theorem everyStepKeepsTheInvariant : Obligations.EveryStepKeepsTheInvariant := by
  intro s t hinv hstep
  rcases step_cases hstep with ⟨-, h⟩ | ⟨ms, -, h⟩ | ⟨m, ms, -, h⟩
  · exact inv_of_unitEffect hinv h
  · exact inv_of_unitEffect (s := { s with agenda := ms }) hinv h
  · exact inv_of_otherEffect (s := { s with agenda := ms }) hinv h

end Sys2Proof.Machine
end

section
/-! SUPPORT. What a step may write, said once for the statements on who changes what (spec R55, R59, R60, R96, R100). -/

namespace Sys2Proof.Machine

variable {s t : State} {f : Fsm}

/-! ### The unit's step, by what it takes off an interface -/

/-- The next event is the END byte that completes a frame (spec R143). -/
def State.acceptsNext (s : State) : Prop := s.fsm = .dEnd ∧ ∃ es, s.rx = .byte endByte :: es

theorem not_acceptsNext_of_fsm (hf : s.fsm = f) (hne : f ≠ .dEnd) : ¬s.acceptsNext :=
  fun h => hne (hf.symm.trans h.1)

theorem not_acceptsNext_of_rx {ev : RxEvent} {es : List RxEvent} (hr : s.rx = ev :: es) (hne : ev ≠ .byte endByte) :
    ¬s.acceptsNext := by
  rintro ⟨-, es', hes'⟩
  exact hne (List.cons.inj (hr.symm.trans hes')).1

/-- The registers and interfaces a step of the unit may write, the rest of the state being kept. -/
inductive UnitWrites (s : State) : State → Prop
  /-- Nothing is there to take (spec R97, R186). -/
  | nothing (h : s.fsm = .idle ∨ s.rx = []) : UnitWrites s s
  /-- An ENCODE is taken (spec R114, R115). -/
  | encode {c : Command} {cs : List Command} (bytes : List Byte) (status : BitVec 16) (hf : s.fsm = .idle)
      (hc : s.cmds = c :: cs) (ho : c.op = opEncode) :
      UnitWrites s { s with cmds := cs, tx := s.tx ++ bytes, encStatus := status }
  /-- A DECODE is taken (spec R136). -/
  | decode {c : Command} {cs : List Command} (hf : s.fsm = .idle) (hc : s.cmds = c :: cs) (ho : c.op = opDecode) :
      UnitWrites s { s with cmds := cs, fsm := .dStart, work := some clearedWork }
  /-- An event is taken and the attempt goes on (spec R138 to R142). -/
  | goesOn {ev : RxEvent} {es : List RxEvent} {f : Fsm} (work : Option Work) (hf : s.fsm ≠ .idle) (hr : s.rx = ev :: es)
      (hno : ¬s.acceptsNext) : UnitWrites s { s.rxTake es with fsm := f, work := work }
  /-- An event is taken and ends the attempt without a frame (spec R151). -/
  | noFrame {ev : RxEvent} {es : List RxEvent} (work : Option Work) (status : BitVec 16) (hf : s.fsm ≠ .idle)
      (hr : s.rx = ev :: es) (hno : ¬s.acceptsNext) :
      UnitWrites s { s.rxTake es with fsm := .idle, work := work, resStatus := status, res := none }
  /-- The END byte is taken and a frame accepted (spec R143, R149). -/
  | frame {es : List RxEvent} (w : Work) (hf : s.fsm = .dEnd) (hr : s.rx = .byte endByte :: es) :
      UnitWrites s ((s.rxTake es).acceptFrame w)

theorem unitWrites_of_unitEffect (h : UnitEffect s t) : UnitWrites s t := by
  cases h with
  | noCommand hf => exact .nothing (.inl hf)
  | wait _ hr => exact .nothing (.inr hr)
  | encReject hf hc ho =>
    have hnoBytes : s.tx = s.tx ++ [] := (List.append_nil _).symm
    simp only [State.encReject]
    rw [hnoBytes]
    exact .encode [] _ hf hc ho
  | encAccept hf hc ho => exact .encode _ _ hf hc ho
  | decode hf hc ho => exact .decode hf hc ho
  | startByte hf hr =>
    have hno := not_acceptsNext_of_fsm hf (by decide)
    unfold onStartByte
    split
    · exact .goesOn _ (by simp [hf]) hr hno
    · exact .noFrame _ _ (by simp [hf]) hr hno
  | typeByte hf hr =>
    have hno := not_acceptsNext_of_fsm hf (by decide)
    unfold onTypeByte
    split
    · exact .noFrame _ _ (by simp [hf]) hr hno
    · exact .goesOn _ (by simp [hf]) hr hno
  | idByte hf hr =>
    have hno := not_acceptsNext_of_fsm hf (by decide)
    unfold onIdByte
    split <;> exact .goesOn _ (by simp [hf]) hr hno
  | dataByte hf hr =>
    have hno := not_acceptsNext_of_fsm hf (by decide)
    unfold onDataByte
    split <;> exact .goesOn _ (by simp [hf]) hr hno
  | endByte hf hr =>
    unfold onEndByte
    split
    case isTrue hb => subst hb; exact .frame _ hf hr
    case isFalse hb => exact .noFrame _ _ (by simp [hf]) hr (not_acceptsNext_of_rx hr (by simpa using hb))
  | timeout hf hr | fault hf hr => exact .noFrame _ _ hf hr (not_acceptsNext_of_rx hr (by simp))

/-! ### A step of any agent (log 5) -/

/-- The next step is the unit's. -/
def State.unitMoves (s : State) : Prop := s.agenda = [] ∨ ∃ ms, s.agenda = .unit :: ms

theorem step_writes (h : step s = .next t) :
    (s.unitMoves ∧ UnitWrites { s with agenda := s.agenda.tail } t) ∨
    (∃ m ms, s.agenda = m :: ms ∧ OtherEffect { s with agenda := ms } m t) := by
  rcases step_cases h with ⟨ha, hunit⟩ | ⟨ms, ha, hunit⟩ | hother
  · have hsame : { s with agenda := s.agenda.tail } = s := by rw [ha, List.tail_nil, ← ha]
    exact .inl ⟨.inl ha, hsame.symm ▸ unitWrites_of_unitEffect hunit⟩
  · refine .inl ⟨.inr ⟨ms, ha⟩, ?_⟩
    rw [ha, List.tail_cons]
    exact unitWrites_of_unitEffect hunit
  · exact .inr hother

theorem not_unitMoves_of_otherEffect {u : State} {m : Move} {ms : List Move} (ha : s.agenda = m :: ms)
    (h : OtherEffect u m t) : ¬s.unitMoves := by
  rintro (hnil | ⟨ms', hms'⟩)
  · exact List.cons_ne_nil m ms (ha.symm.trans hnil)
  · obtain ⟨rfl, -⟩ := List.cons.inj (ha.symm.trans hms')
    cases h

/-- The unit's step leaves the moves behind it standing. -/
theorem agenda_of_unitWrites (h : UnitWrites s t) : t.agenda = s.agenda := by
  cases h <;> rfl

/-! ### The obligations -/

/-- Settles O39: only a no-frame outcome, an accepted frame and a reset step write the results. -/
theorem resultsChangeOnlyWhenAnAttemptEnds : Obligations.ResultsChangeOnlyWhenAnAttemptEnds := by
  intro s t hstep hchange
  rcases step_writes hstep with ⟨-, hunit⟩ | ⟨m, ms, ha, hother⟩
  · cases hunit with
    | nothing | encode | decode | goesOn => simp at hchange
    | noFrame work status hf => exact ⟨rfl, .inl ⟨hf, rfl⟩⟩
    | frame w hf => exact ⟨rfl, .inl ⟨by rw [show s.fsm = .dEnd from hf]; decide, rfl⟩⟩
  · cases hother with
    | deliver | issue | read => simp at hchange
    | reset => exact ⟨rfl, .inr ⟨ms, ha⟩⟩

/-- Settles O40: TX and ENC_STATUS are written where an ENCODE is taken, and ENC_STATUS by a reset step too. -/
theorem onlyEncodeTouchesTxAndItsStatus : Obligations.OnlyEncodeTouchesTxAndItsStatus := by
  intro s t hstep
  rcases step_writes hstep with ⟨-, hunit⟩ | ⟨m, ms, ha, hother⟩
  · cases hunit with
    | nothing | decode | goesOn | noFrame | frame => simp
    | encode bytes status hf hc ho =>
      exact ⟨List.prefix_append s.tx bytes, fun _ => .inr ⟨hf, ⟨_, hc, ho⟩, hf, rfl, rfl, rfl, rfl, rfl, rfl⟩⟩
  · cases hother with
    | deliver | issue | read => simp
    | reset => exact ⟨List.prefix_rfl, fun _ => .inl ⟨ms, ha, rfl⟩⟩

/-- Settles O41: an event leaves the RX input where an attempt takes it, and enters it by a delivery. -/
theorem rxEventsAreConsumedInOrderOnce : Obligations.RxEventsAreConsumedInOrderOnce := by
  intro s t hstep
  rcases step_writes hstep with ⟨-, hunit⟩ | ⟨m, ms, ha, hother⟩
  · cases hunit with
    | nothing | encode | decode => exact .inl ⟨rfl, rfl⟩
    | goesOn _ hf hr | noFrame _ _ hf hr => exact .inr (.inl ⟨hf, ⟨_, hr⟩, rfl⟩)
    | frame w hf hr => exact .inr (.inl ⟨by rw [show s.fsm = .dEnd from hf]; decide, ⟨_, hr⟩, rfl⟩)
  · cases hother with
    | issue | read | reset => exact .inl ⟨rfl, rfl⟩
    | deliver e => exact .inr (.inr ⟨e, ms, ha, rfl, rfl⟩)

/-- Settles O42: a command leaves the port where the unit takes it in IDLE, and enters it by an issue. -/
theorem commandsAreAcceptedInOrderOnlyInIdle : Obligations.CommandsAreAcceptedInOrderOnlyInIdle := by
  intro s t hstep
  rcases step_writes hstep with ⟨-, hunit⟩ | ⟨m, ms, ha, hother⟩
  · cases hunit with
    | nothing | goesOn | noFrame | frame => exact .inl rfl
    | encode _ _ hf hc ho => exact .inr (.inl ⟨hf, _, hc, .inl ho⟩)
    | decode hf hc ho => exact .inr (.inl ⟨hf, _, hc, .inr ho⟩)
  · cases hother with
    | deliver | read | reset => exact .inl rfl
    | issue c => exact .inr (.inr ⟨c, ms, ha, rfl⟩)

/-- Settles O43: TS is drawn by an accepted frame, which is the unit's step on END in D_END. -/
theorem policyStaysAndTsIsDrawnOncePerFrame : Obligations.PolicyStaysAndTsIsDrawnOncePerFrame := by
  intro s t hstep
  rcases step_writes hstep with ⟨hmoves, hunit⟩ | ⟨m, ms, ha, hother⟩
  · cases hunit with
    | nothing h =>
      refine ⟨rfl, fun ⟨_, hf, es, hr⟩ => ?_, fun _ => rfl⟩
      rcases h with h | h
      · exact absurd (hf.symm.trans h) (by decide)
      · exact absurd (hr.symm.trans h) (by simp)
    | encode _ _ hf | decode hf =>
      exact ⟨rfl, fun ⟨_, hend, _⟩ => absurd (hf.symm.trans hend) (by decide), fun _ => rfl⟩
    | goesOn _ _ _ hno | noFrame _ _ _ _ hno => exact ⟨rfl, fun ⟨_, haccepts⟩ => absurd haccepts hno, fun _ => rfl⟩
    | frame w hf hr =>
      exact ⟨rfl, fun _ => ⟨rfl, rfl, _, rfl, rfl⟩, fun h => absurd ⟨hmoves, hf, _, hr⟩ h⟩
  · have hnot := not_unitMoves_of_otherEffect ha hother
    refine ⟨?_, fun ⟨hmoves, _⟩ => absurd hmoves hnot, fun _ => ?_⟩
    · cases hother <;> rfl
    · cases hother <;> rfl

theorem exec_encode_of_busy (hf : s.fsm ≠ .idle) (id : BitVec 32) (ext rtr : Bool) (dlc plen : BitVec 4)
    (pdata : List Byte) : exec (.encode id ext rtr dlc plen pdata) s = .next s := by
  simp [exec, execEncode, hf]

theorem exec_decode_of_busy (hf : s.fsm ≠ .idle) : exec .decode s = .next s := by
  simp [exec, execDecode, hf]

/-- Settles O13: both meanings test CMD_READY, and a command leaves the port in IDLE only (O42). -/
theorem busyUnitAcceptsNoCommand : Obligations.BusyUnitAcceptsNoCommand := by
  refine fun s hf => ⟨exec_encode_of_busy hf, exec_decode_of_busy hf, fun t ha hstep => ?_⟩
  rcases commandsAreAcceptedInOrderOnlyInIdle s t hstep with hcmds | ⟨hidle, -⟩ | ⟨c, ms, hissue, -⟩
  · exact hcmds
  · exact absurd hidle hf
  · exact absurd (ha.symm.trans hissue) (by simp)

end Sys2Proof.Machine
end

section
/-! SUPPORT. The type byte in D_TYPE and out of it (spec R77, R86, R139, R140), and the id bytes' order (spec R56). -/

namespace Sys2Proof.Machine

variable {s : State} {w : Work} {t t' : Byte}

/-! ### The id bytes -/

/-- Settles O8: an id assembled from nothing has its bytes as the digits in base 2^8. -/
theorem idBytesAreLittleEndian : Obligations.IdBytesAreLittleEndian := by
  refine ⟨fun b0 b1 => ?_, fun b0 b1 b2 b3 => ?_, assemble_ext, assemble_std⟩
  · rw [assembleFrom_toNat 0#32 0 [b0, b1] (by decide) (by simp)]
    simp [Nat.ofDigits_cons]
  · rw [assembleFrom_toNat 0#32 0 [b0, b1, b2, b3] (by decide) (by simp)]
    simp [Nat.ofDigits_cons]
    omega

/-! ### What of the type byte is read (spec R77) -/

theorem typeExt_and_mask (t : Byte) : typeExt (t &&& 0x3F#8) = typeExt t := by simp [typeExt]

theorem typeRtr_and_mask (t : Byte) : typeRtr (t &&& 0x3F#8) = typeRtr t := by simp [typeRtr]

theorem typeDlc_and_mask (t : Byte) : typeDlc (t &&& 0x3F#8) = typeDlc t := by
  ext i hi
  interval_cases i <;> simp [typeDlc]

/-! ### D_TYPE's two outcomes (spec R139, R140) -/

theorem onTypeByte_of_reject (h : s.policy = .reject ∧ dlcMax < (typeDlc t).toNat) :
    onTypeByte t w s = { s.noFrame .dlcRange (stageOf .dType) (w.wNb + 1#5) with
      work := some { w with wType := t, wNb := w.wNb + 1#5 } } :=
  if_pos h

theorem onTypeByte_of_pass (h : ¬(s.policy = .reject ∧ dlcMax < (typeDlc t).toNat)) :
    onTypeByte t w s = { s with fsm := .dId, work := some { w with wType := t, wNb := w.wNb + 1#5, wCnt := 0#4 } } :=
  if_neg h

/-- Settles O7: the state's rule reads dlc alone, which is in bits 5:0, and W_TYPE takes the byte. -/
theorem typeBitsSevenSixSelectNothing : Obligations.TypeBitsSevenSixSelectNothing := by
  intro s w t t' es ha hf hw hrx hlow
  have hext : typeExt t' = typeExt t := by rw [← typeExt_and_mask t', ← hlow, typeExt_and_mask]
  have hrtr : typeRtr t' = typeRtr t := by rw [← typeRtr_and_mask t', ← hlow, typeRtr_and_mask]
  have hdlc : typeDlc t' = typeDlc t := by rw [← typeDlc_and_mask t', ← hlow, typeDlc_and_mask]
  have hstep := step_of_byte ha hf (by decide) hw hrx
  have hstep' := step_of_byte (s := { s with rx := .byte t' :: es }) ha hf (by decide) hw rfl
  by_cases hreject : s.policy = .reject ∧ dlcMax < (typeDlc t).toNat
  · exact ⟨_, _, hstep.trans (congrArg _ (onTypeByte_of_reject hreject)), rfl, rfl,
      hstep'.trans (congrArg _ (onTypeByte_of_reject (hdlc ▸ hreject))), hext, hrtr, hdlc⟩
  · exact ⟨_, _, hstep.trans (congrArg _ (onTypeByte_of_pass hreject)), rfl, rfl,
      hstep'.trans (congrArg _ (onTypeByte_of_pass (hdlc ▸ hreject))), hext, hrtr, hdlc⟩

/-! ### The four wire types (spec R86, R139) -/

/-- The four type bytes with their fields side by side, high bits first (spec R75). -/
theorem typeByteOf_eq_append (hi : BitVec 2) (dlc : BitVec 4) :
    typeByteOf hi false false dlc = hi ++ 0b00#2 ++ dlc ∧ typeByteOf hi false true dlc = hi ++ 0b01#2 ++ dlc ∧
    typeByteOf hi true false dlc = hi ++ 0b10#2 ++ dlc ∧ typeByteOf hi true true dlc = hi ++ 0b11#2 ++ dlc := by
  revert hi dlc; decide

/-- The four meanings are one rule on the type byte they spell. -/
theorem exec_wire {hi : BitVec 2} {dlc : BitVec 4} {i : Instr}
    (h : (i, t) ∈ [(Instr.wireStdData hi dlc, hi ++ 0b00#2 ++ dlc), (Instr.wireStdRemote hi dlc, hi ++ 0b01#2 ++ dlc),
      (Instr.wireExtData hi dlc, hi ++ 0b10#2 ++ dlc), (Instr.wireExtRemote hi dlc, hi ++ 0b11#2 ++ dlc)]) :
    exec i s = typeDispatch t s ∧ typeDlc t = dlc := by
  obtain ⟨hstdData, hstdRemote, hextData, hextRemote⟩ := typeByteOf_eq_append hi dlc
  obtain ⟨ext, rtr, hexec, ht⟩ : ∃ ext rtr, exec i s = typeDispatch (typeByteOf hi ext rtr dlc) s ∧
      typeByteOf hi ext rtr dlc = t := by
    simp only [List.mem_cons, Prod.mk.injEq, List.not_mem_nil, or_false] at h
    rcases h with ⟨rfl, ht⟩ | ⟨rfl, ht⟩ | ⟨rfl, ht⟩ | ⟨rfl, ht⟩
    · exact ⟨false, false, rfl, hstdData.trans ht.symm⟩
    · exact ⟨false, true, rfl, hstdRemote.trans ht.symm⟩
    · exact ⟨true, false, rfl, hextData.trans ht.symm⟩
    · exact ⟨true, true, rfl, hextRemote.trans ht.symm⟩
  subst ht
  exact ⟨hexec, typeDlc_typeByteOf ..⟩

theorem typeDispatch_of_dType (hf : s.fsm = .dType) (hw : s.work = some w) :
    typeDispatch t s = .next (onTypeByte t w s) := by
  simp [typeDispatch, hf, withWork, hw]

/-- Settles O17: `onTypeByte` is the rule of all four, with one branch for each outcome. -/
theorem typeByteRule : Obligations.TypeByteRule := by
  intro s w hi dlc hf hw i t hit
  obtain ⟨hexec, rfl⟩ := exec_wire (s := s) hit
  rw [hexec, typeDispatch_of_dType hf hw]
  refine ⟨fun hpass => ?_, fun hreject hgt => ?_⟩
  · have hgoes : ¬(s.policy = .reject ∧ dlcMax < (typeDlc t).toNat) := by
      rintro ⟨hreject, hgt⟩
      rcases hpass with hpass | hle
      · exact absurd (hreject.symm.trans hpass) (by decide)
      · exact absurd hgt (Nat.not_lt.mpr hle)
    rw [onTypeByte_of_pass hgoes]
  · rw [onTypeByte_of_reject ⟨hreject, hgt⟩, noFrame_eq_afterNoFrame]
    rfl

/-- Settles O18: `typeDispatch` tests the state, and then reads the working registers. -/
theorem typeByteStopsOutsideItsState : Obligations.TypeByteStopsOutsideItsState := by
  intro s hi dlc i hwire
  obtain ⟨t, hexec⟩ : ∃ t, exec i s = typeDispatch t s := by
    simp only [List.mem_cons, List.not_mem_nil, or_false] at hwire
    rcases hwire with rfl | rfl | rfl | rfl <;> exact ⟨_, rfl⟩
  rw [hexec]
  refine ⟨fun hf => if_neg hf, fun hf hw => ?_⟩
  rw [typeDispatch, if_pos hf]
  exact withWork_none hw _

/-- Settles O2: D_TYPE's rule on a byte is the meaning of what the byte decodes to. -/
theorem typeByteStepRunsTheDecodedWireType : Obligations.TypeByteStepRunsTheDecodedWireType := by
  intro s t es ha hf hrx
  have hrule : onEvent (.byte t) (s.rxTake es) = exec (decodeTypeByte t) (s.rxTake es) := by
    simp only [onEvent, onByte, rxTake_fsm, hf]
  exact (step_of_event ha (by simp [hf]) hrx).trans hrule

/-! ### A placed word (log 12, 13) -/

theorem step_placeWord_command (s : State) (c : Command) :
    step (placeWord s (.command c)) = exec (decodeCommand c) { s with agenda := [], fsm := .idle } :=
  step_of_command (s := placeWord s (.command c)) rfl rfl rfl

theorem step_placeWord_typeByte (s : State) (t : Byte) :
    step (placeWord s (.typeByte t)) = exec (decodeTypeByte t)
      { s with agenda := [], fsm := .dType, work := some { clearedWork with wNb := 1#5 }, rxTaken := s.rxTaken + 1 } :=
  typeByteStepRunsTheDecodedWireType (placeWord s (.typeByte t)) t s.rx rfl rfl rfl

/-- Settles O4: the word is a command or a type byte, and the rows it can decode to are those of its kind. -/
theorem placedWordRunsNext : Obligations.PlacedWordRunsNext := by
  intro s nbits w i hdecode
  obtain ⟨word, hword, rfl⟩ := Option.map_eq_some_iff.mp hdecode
  rw [State.withFetchWord, hword]
  cases word with
  | command c =>
    refine (step_placeWord_command s c).trans ?_
    rw [decodeWord]
    rcases decodeCommand_cases c with ⟨-, hd⟩ | ⟨-, hd⟩ | ⟨-, hd⟩ | ⟨-, hd⟩ <;> rw [hd]
  | typeByte t =>
    refine (step_placeWord_typeByte s t).trans ?_
    rw [decodeWord, decodeTypeByte]
    split <;> rfl

end Sys2Proof.Machine
end
section
/-! SUPPORT. The unit's step in a decoder state with an event and without one (spec R59, R99, R137, R186), and the agenda
(log 5). -/

namespace Sys2Proof.Machine

variable {s : State}

/-! ### A Timeout and a Fault (spec R137) -/

/-- Settles O22: the no-frame outcome with the state's stage. -/
theorem timeoutAndFaultEndTheAttempt : Obligations.TimeoutAndFaultEndTheAttempt := by
  intro s w es stage ha hw hstage
  obtain ⟨hf, hstage⟩ : s.fsm ≠ .idle ∧ (stageOf s.fsm).toNat = stage := by
    simp only [List.mem_cons, Prod.mk.injEq, List.not_mem_nil, or_false] at hstage
    rcases hstage with ⟨hf, rfl⟩ | ⟨hf, rfl⟩ | ⟨hf, rfl⟩ | ⟨hf, rfl⟩ | ⟨hf, rfl⟩ <;> rw [hf] <;> decide
  subst hstage
  refine ⟨fun hrx => ?_, fun hrx => ?_⟩
  · rw [step_of_timeout ha rfl hf hw hrx, noFrame_eq_afterNoFrame]
    rfl
  · rw [step_of_fault ha rfl hf hw hrx, noFrame_eq_afterNoFrame]
    rfl

/-! ### Any event -/

theorem work_of_inv (hinv : s.inv = true) (hf : s.fsm ≠ .idle) : ∃ w, s.work = some w := by
  obtain ⟨-, -, hwork⟩ := inv_iff.mp hinv
  cases hw : s.work with
  | some w => exact ⟨w, rfl⟩
  | none =>
    rw [hw] at hwork
    cases hfsm : s.fsm with
    | idle => exact absurd hfsm hf
    | dStart | dType | dId | dData | dEnd => simp [hfsm, workOk] at hwork

/-- Settles O23: the invariant gives the working registers a value, and each event has its rule. -/
theorem decoderStepConsumesExactlyOneEvent : Obligations.DecoderStepConsumesExactlyOneEvent := by
  intro s ev es hinv ha hf hrx
  obtain ⟨w, hw⟩ := work_of_inv hinv hf
  cases ev with
  | byte b =>
    obtain ⟨hes, htaken⟩ := byteRule_rx (f := s.fsm) (w := w) (s := s.rxTake es) b
    exact ⟨_, step_of_byte ha rfl hf hw hrx, hes, htaken⟩
  | timeout => exact ⟨_, step_of_timeout ha rfl hf hw hrx, rfl, rfl⟩
  | fault => exact ⟨_, step_of_fault ha rfl hf hw hrx, rfl, rfl⟩

/-! ### No event (spec R186) -/

theorem core_run_of_step_self (h : step s = .next s) (k : Nat) : core.run k s = .next s := by
  induction k with
  | zero => rfl
  | succ k ih => rw [core_run_succ_of_step k h, ih]

/-- Settles O24: a waiting step answers the same state, and a delivery ends the wait as O23 says. -/
theorem waitHoldsAllState : Obligations.WaitHoldsAllState := by
  refine fun s ha => ⟨fun hf hrx => core_run_of_step_self (step_of_wait ha hf hrx),
    fun hf hc => core_run_of_step_self (step_of_noCommand ha hf hc), fun hinv hf hrx e => ?_⟩
  have hdeliver : step { s with agenda := [.deliver e] } = .next { s with agenda := [], rx := s.rx ++ [e] } := rfl
  obtain ⟨t, hstep, hes, htaken⟩ :=
    decoderStepConsumesExactlyOneEvent { s with agenda := [], rx := s.rx ++ [e] } e [] hinv rfl hf (by rw [hrx]; rfl)
  exact ⟨t, (core_run_succ_of_step 1 hdeliver).trans (core_run_succ_of_step 0 hstep), hes, htaken⟩

/-! ### The first move of the agenda (log 5) -/

theorem step_of_unit {ms : List Move} (ha : s.agenda = .unit :: ms) :
    step s = withAgenda ms (step { s with agenda := [] }) := by
  have hstep : step s = unitStep { s with agenda := ms } := by rw [step, nextMove, ha]; rfl
  rw [hstep]
  exact unitStep_agenda ms { s with agenda := [] }

/-- Settles O3: the unit's step does not read the moves behind it, and the other two moves are one append each. -/
theorem agendaSaysWhoMovesNext : Obligations.AgendaSaysWhoMovesNext := by
  refine fun s m ms ha => ⟨?_, ?_, ?_⟩
  · rintro rfl
    rw [step_of_unit ha]
    exact ⟨fun t h => by rw [h]; rfl, fun f h => by rw [h]; rfl, fun r h => by rw [h]; rfl⟩
  · rintro e rfl
    rw [step, nextMove, ha]
    rfl
  · rintro c rfl
    rw [step, nextMove, ha]
    rfl

end Sys2Proof.Machine
end

section
/-! SUPPORT. What RES_STATUS says of a held frame (spec R28, R33, R150, R204). -/

namespace Sys2Proof.Machine

variable {s : State} {r : FrameRegs}

/-- RES_DATA with a value exactly below RES_DLC holds a payload of RES_DLC bytes (spec R33, R149). -/
theorem frame_payload_length (hdata : ∀ i : Fin 15, r.resData[i.val].isSome = decide (i.val < r.resDlc.toNat)) :
    r.frame.payload.length = r.resDlc.toNat := by
  have hcapture : r.resData = captureData (r.resData.map fun o => o.getD 0#8) r.resDlc := by
    ext1 i hi
    have hsome := hdata ⟨i, hi⟩
    rw [captureData_getElem _ _ i hi, Vector.getElem_map]
    by_cases hlt : i < r.resDlc.toNat
    · obtain ⟨b, hb⟩ := Option.isSome_iff_exists.mp (hsome.trans (decide_eq_true hlt))
      rw [if_pos hlt, hb, Option.getD_some]
    · rw [if_neg hlt]
      simpa [hlt] using hsome
  have hdlc : r.resDlc.toNat ≤ 15 := Nat.le_of_lt_succ r.resDlc.isLt
  rw [FrameRegs.frame, hcapture, captureData_payload, List.length_take, Vector.length_toList, Nat.min_eq_left hdlc]

/-- Without a frame CODE is none of FRAME (spec R147). -/
theorem resCode_ne_frame_of_noFrameCountOk {p : DlcPolicy} {code : BitVec 4} {stage : BitVec 3} {nb : Nat}
    (h : noFrameCountOk p code stage nb = true) : code ≠ 1#4 := by
  rintro rfl
  simp [noFrameCountOk, codeBits] at h

/-- What the invariant says of RES_STATUS while no frame is held (spec R151). -/
theorem resStatus_of_res_none (hinv : s.inv = true) (hres : s.res = none) :
    resValid s.resStatus = false ∧ resCode s.resStatus ≠ 1#4 := by
  have hresults := resultsOk_of_inv hinv
  rw [hres] at hresults
  simp only [resultsOk, Bool.and_eq_true, Bool.not_eq_true'] at hresults
  obtain ⟨⟨⟨⟨-, hvalid⟩, -⟩, -⟩, hcount⟩ := hresults
  exact ⟨hvalid, resCode_ne_frame_of_noFrameCountOk hcount⟩

/-- What it says while one is (spec R150, R174). -/
theorem resStatus_of_res_some (hinv : s.inv = true) (hres : s.res = some r) :
    resValid s.resStatus = true ∧ resCode s.resStatus = 1#4 ∧
    resDlcGt8 s.resStatus = decide (dlcMax < r.resDlc.toNat) ∧ resIdWide s.resStatus = tooWide r.resId r.resExt ∧
    policyAllows s.policy r.resDlc = true := by
  have hresults := resultsOk_of_inv hinv
  rw [hres] at hresults
  simp only [resultsOk, Bool.and_eq_true, beq_iff_eq] at hresults
  obtain ⟨⟨⟨⟨⟨⟨hword, -⟩, -⟩, -⟩, -⟩, hpolicy⟩, -⟩ := hresults
  rw [hword]
  exact ⟨resValid_resStatusWord .., resCode_resStatusWord .., resDlcGt8_resStatusWord .., resIdWide_resStatusWord ..,
    hpolicy⟩

/-- Settles O38: with no frame held VALID is 0 and CODE is not FRAME; with one RES_STATUS is the FRAME word of it. -/
theorem flagsTellValidFrames : Obligations.FlagsTellValidFrames := by
  intro s hinv
  cases hres : s.res with
  | none =>
    obtain ⟨hvalid, hcode⟩ := resStatus_of_res_none hinv hres
    simp [hvalid, hcode]
  | some r =>
    obtain ⟨hvalid, hcode, hgt8, hwide, hpolicy⟩ := resStatus_of_res_some hinv hres
    refine ⟨by simp [hvalid, hcode], by simp [hvalid], ?_⟩
    rintro r' ⟨rfl⟩
    refine ⟨by simp [hgt8], ?_, fun hnoGt8 hnoWide => ?_, fun hset => ?_⟩
    · rw [hwide]
      cases hext : r.resExt <;> simp [tooWide]
    · have hdlc : r.resDlc.toNat ≤ 8 := by simpa [hgt8] using hnoGt8
      exact canFrame_wf_iff.mpr
        ⟨hdlc, frame_payload_length (resData_isSome_of_inv hinv hres), hwide.symm.trans hnoWide⟩
    · cases hp : s.policy with
      | pass => rfl
      | reject =>
        have hgt : dlcMax < r.resDlc.toNat := by simpa [hgt8] using hset
        have hle : r.resDlc.toNat ≤ dlcMax := by simpa [policyAllows, hp] using hpolicy
        exact absurd hgt (Nat.not_lt.mpr hle)

end Sys2Proof.Machine
end
section
/-! SUPPORT. Where a step stops (spec R83, R37, R102), and the marks a run keeps of it. -/

namespace Sys2Proof.Machine

variable {s t : State}

/-! ### Every stop of a step -/

theorem step_of_idle (ha : s.agenda = []) (hf : s.fsm = .idle) :
    (∃ t, step s = .next t) ∨
    ∃ c cs, s.cmds = c :: cs ∧ (c.op = 0b00#2 ∨ c.op = 0b11#2) ∧ step s = .refused (.reservedCommand c.op) := by
  cases hc : s.cmds with
  | nil => exact .inl ⟨s, step_of_noCommand ha hf hc⟩
  | cons c cs =>
    have hstep := step_of_command ha hf hc
    have hreserved : c.op = 0b00#2 ∨ c.op = 0b11#2 → step s = .refused (.reservedCommand c.op) :=
      fun ho => hstep.trans (exec_decodeCommand_of_reserved ho _)
    rcases decodeCommand_cases c with ⟨-, hd⟩ | ⟨ho, -⟩ | ⟨ho, -⟩ | ⟨ho, -⟩
    · rw [hd] at hstep
      cases hx : (encCheck c.id c.ext c.dlc c.plen).any with
      | true => exact .inl ⟨_, hstep.trans (exec_encode_of_violation hf hx)⟩
      | false => exact .inl ⟨_, hstep.trans (exec_encode_of_pass hf hx)⟩
    · exact .inl ⟨_, step_of_decode ha hf hc ho⟩
    · exact .inr ⟨c, cs, rfl, .inl ho, hreserved (.inl ho)⟩
    · exact .inr ⟨c, cs, rfl, .inr ho, hreserved (.inr ho)⟩

theorem step_of_busy (ha : s.agenda = []) (hf : s.fsm ≠ .idle) :
    (∃ t, step s = .next t) ∨ s.work = none ∧ step s = .fault .workNoValue := by
  cases hrx : s.rx with
  | nil => exact .inl ⟨s, step_of_wait ha hf hrx⟩
  | cons ev es =>
    cases hw : s.work with
    | none => exact .inr ⟨rfl, step_of_work_none ha hf hw hrx⟩
    | some w =>
      cases ev with
      | byte b => exact .inl ⟨_, step_of_byte ha rfl hf hw hrx⟩
      | timeout => exact .inl ⟨_, step_of_timeout ha rfl hf hw hrx⟩
      | fault => exact .inl ⟨_, step_of_fault ha rfl hf hw hrx⟩

/-- The ways a step can stop. -/
inductive StepStops (s : State) : Result → Prop
  /-- A reserved command is oldest in IDLE (spec R83). -/
  | reserved {c : Command} {cs : List Command} (hf : s.fsm = .idle) (hc : s.cmds = c :: cs)
      (ho : c.op = 0b00#2 ∨ c.op = 0b11#2) : StepStops s (.refused (.reservedCommand c.op))
  /-- The decoder reads working registers without value (spec R37). -/
  | noWork (hf : s.fsm ≠ .idle) (hw : s.work = none) : StepStops s (.fault .workNoValue)
  /-- The host reads a register without value (spec R37). -/
  | noValue {r : HostReg} {ms : List Move} (ha : s.agenda = .read r :: ms) (hv : s.hostValue r = none) :
      StepStops s (.fault (.noValue r))

theorem step_stops_of_unit (ha : s.agenda = []) : (∃ t, step s = .next t) ∨ StepStops s (step s) := by
  by_cases hf : s.fsm = .idle
  · refine (step_of_idle ha hf).imp_right ?_
    rintro ⟨c, cs, hc, ho, hstep⟩
    exact hstep ▸ .reserved hf hc ho
  · refine (step_of_busy ha hf).imp_right ?_
    rintro ⟨hw, hstep⟩
    exact hstep ▸ .noWork hf hw

theorem step_stops (s : State) : (∃ t, step s = .next t) ∨ StepStops s (step s) := by
  cases ha : s.agenda with
  | nil => exact step_stops_of_unit ha
  | cons m ms =>
    cases m with
    | unit =>
      rw [step_of_unit ha]
      rcases step_stops_of_unit (s := { s with agenda := [] }) rfl with ⟨t, hstep⟩ | hstop
      · exact .inl ⟨{ t with agenda := ms }, by rw [hstep, withAgenda_next]⟩
      · generalize step { s with agenda := [] } = outcome at hstop ⊢
        cases hstop with
        | reserved hf hc ho => exact .inr (.reserved hf hc ho)
        | noWork hf hw => exact .inr (.noWork hf hw)
        | noValue ha' => exact absurd ha' (by simp)
    | deliver e => exact .inl ⟨_, by rw [step, nextMove, ha]; rfl⟩
    | issue c => exact .inl ⟨_, by rw [step, nextMove, ha]; rfl⟩
    | reset => exact .inl ⟨_, step_of_reset ha⟩
    | read r =>
      cases hv : s.hostValue r with
      | some v => exact .inl ⟨_, step_read_of_value ha hv⟩
      | none => exact .inr (step_read_of_noValue ha hv ▸ .noValue ha hv)

/-- A register of an invariant state that has no value: a frame result register while no frame is held, or RES_DATA[i]
with RES_DLC at most i (spec R33). -/
theorem hostValue_eq_none_of_inv {r : HostReg} (hinv : s.inv = true) (hv : s.hostValue r = none) :
    r ∉ [HostReg.cmdReady, .encStatus, .resStatus] ∧
    (resValid s.resStatus = false ∨ ∃ i g, r = .resData i ∧ s.res = some g ∧ g.resDlc.toNat ≤ i.val) := by
  have hframe : ∀ f, s.res = some f → r ∉ [HostReg.resId, .resExt, .resRtr, .resDlc, .resType, .resTs] := by
    intro f hres hr
    obtain ⟨v, hv', -⟩ := hostValue_of_res_some hr hres
    simp [hv] at hv'
  refine ⟨?_, ?_⟩
  · intro hr
    simp only [List.mem_cons, List.not_mem_nil, or_false] at hr
    rcases hr with rfl | rfl | rfl <;> simp [State.hostValue] at hv
  · cases hres : s.res with
    | none => exact .inl (resStatus_of_res_none hinv hres).1
    | some f =>
      cases r with
      | cmdReady | encStatus | resStatus => simp [State.hostValue] at hv
      | resId | resExt | resRtr | resDlc | resType | resTs => exact absurd (by simp) (hframe f hres)
      | resData i =>
        rw [hostValue_resData i hres, Option.map_eq_none_iff] at hv
        have hsome := resData_isSome_of_inv hinv hres i
        rw [hv] at hsome
        exact .inr ⟨i, f, rfl, rfl, by simpa using hsome.symm⟩

/-- Settles O44: of the stops of a step, the decoder's does not occur under the invariant. -/
theorem stepsStopOnlyWhereTheSpecSays : Obligations.StepsStopOnlyWhereTheSpecSays := by
  intro s
  have hstops := step_stops s
  refine ⟨fun r hstep => ?_, fun f hinv hstep => ?_⟩
  · rw [hstep] at hstops
    rcases hstops with ⟨t, ht⟩ | hstop
    · cases ht
    · cases hstop with
      | reserved hf hc ho => exact ⟨hf, _, _, hc, ho, rfl⟩
  · rw [hstep] at hstops
    rcases hstops with ⟨t, ht⟩ | hstop
    · cases ht
    · cases hstop with
      | noWork hf hw =>
        obtain ⟨w, hw'⟩ := work_of_inv hinv hf
        exact absurd (hw.symm.trans hw') (by simp)
      | noValue ha hv =>
        obtain ⟨hstatus, hmissing⟩ := hostValue_eq_none_of_inv hinv hv
        exact ⟨_, _, ha, rfl, hv, hstatus, hmissing⟩

/-! ### Runs with and without marks (spec R102; log 1) -/

/-- The run `r'` taken up where `r` ended: the marks of `r` stay. -/
def RunEnd.andThen (r r' : RunEnd) : RunEnd :=
  { last := r'.last, faultMark := r.faultMark.or r'.faultMark, refusalMark := r.refusalMark.or r'.refusalMark }

theorem andThen_advance (r r' : RunEnd) : (r.andThen r').advance = r.andThen r'.advance := by
  have hlast : (r.andThen r').last = r'.last := rfl
  cases hstep : step r'.last with
  | next t =>
    rw [advance_next hstep, advance_next (hlast ▸ hstep)]
    rfl
  | fault f =>
    rw [advance_fault hstep, advance_fault (hlast ▸ hstep)]
    simp [RunEnd.andThen]
  | refused f =>
    rw [advance_refused hstep, advance_refused (hlast ▸ hstep)]
    simp [RunEnd.andThen]

theorem runFrom_add (k j : Nat) (s : State) :
    runFrom (k + j) s = (runFrom k s).andThen (runFrom j (runFrom k s).last) := by
  induction j with
  | zero => simp [RunEnd.andThen]
  | succ j ih => rw [← Nat.add_assoc, runFrom_succ, ih, runFrom_succ, andThen_advance]

theorem advance_unmarked_iff {r : RunEnd} :
    r.advance = { last := t, faultMark := none, refusalMark := none } ↔
      r = { last := r.last, faultMark := none, refusalMark := none } ∧ step r.last = .next t := by
  obtain ⟨last, faultMark, refusalMark⟩ := r
  cases hstep : step last with
  | next u => rw [advance_next hstep]; simp; tauto
  | fault f => rw [advance_fault hstep]; simp
  | refused f => rw [advance_refused hstep]; simp

/-- The machine's runs are the runs without a mark. -/
theorem core_run_eq_next_iff (k : Nat) (s t : State) :
    core.run k s = .next t ↔ runFrom k s = { last := t, faultMark := none, refusalMark := none } := by
  induction k generalizing t with
  | zero => exact ⟨by rintro ⟨⟩; rfl, by rintro ⟨⟩; rfl⟩
  | succ k ih =>
    rw [runFrom_succ, advance_unmarked_iff, ← ih, core_run_succ]
    cases hrun : core.run k s with
    | next u =>
      have hlast : (runFrom k s).last = u := congrArg RunEnd.last ((ih u).mp hrun)
      rw [hlast]
      exact ⟨fun hstep => ⟨rfl, hstep⟩, fun h => h.2⟩
    | fault f => simp
    | refused f => simp

theorem safe_iff {r : RunEnd} : r.safe = true ↔ r = { last := r.last, faultMark := none, refusalMark := none } := by
  obtain ⟨last, faultMark, refusalMark⟩ := r
  simp [RunEnd.safe]

/-- Settles O45: a longer run is the shorter one with more steps behind it. -/
theorem marksAreNeverCleared : Obligations.MarksAreNeverCleared := by
  refine fun s k j => ⟨fun f hmark => ?_, fun r hmark => ?_, fun hsafe => ?_, fun t hrun => ?_⟩
  · rw [runFrom_add, RunEnd.andThen, hmark, Option.some_or]
  · rw [runFrom_add, RunEnd.andThen, hmark, Option.some_or]
  · exact (core_run_eq_next_iff k s _).mpr (safe_iff.mp hsafe)
  · rw [(core_run_eq_next_iff k s t).mp hrun]
    exact ⟨rfl, rfl⟩

end Sys2Proof.Machine
end

section
/-! SUPPORT. Runs under a schedule (spec R53, R59; log 25): the machine's runs with that agenda, and the accounting of RX
events. -/

namespace Sys2Proof.Machine

variable {s t : State} {m : Move} {ms : List Move}

/-! ### The moves of a schedule as an agenda -/

/-- A run's end with the moves `ms` still to come. -/
def RunEnd.withAgenda (r : RunEnd) (ms : List Move) : RunEnd := { r with last := { r.last with agenda := ms } }

theorem dropStopped_agenda (s : State) (m : Move) (ms : List Move) :
    State.dropStopped { s with agenda := m :: ms } = { State.dropStopped { s with agenda := [m] } with agenda := ms } := by
  cases m with
  | unit =>
    by_cases hf : s.fsm = .idle <;> simp [State.dropStopped, State.dropRefused, State.cmdReady, hf]
  | deliver | issue | read | reset => rfl

theorem advance_withAgenda (r : RunEnd) (m : Move) (ms : List Move) :
    (r.withAgenda (m :: ms)).advance = (r.advanceBy m).withAgenda ms := by
  have hstep := step_agenda m ms r.last
  have hdrop := dropStopped_agenda r.last m ms
  cases hone : step { r.last with agenda := [m] } with
  | next t =>
    have hby : r.advanceBy m = { r with last := t } := advance_next hone
    rw [hone, withAgenda_next] at hstep
    rw [hby]
    exact advance_next hstep
  | fault f =>
    have hby : r.advanceBy m =
        { r with last := State.dropStopped { r.last with agenda := [m] }, faultMark := r.faultMark.or (some f) } :=
      advance_fault hone
    rw [hone, withAgenda_fault] at hstep
    rw [hby]
    exact (advance_fault hstep).trans (by simp only [RunEnd.withAgenda, hdrop])
  | refused f =>
    have hby : r.advanceBy m =
        { r with last := State.dropStopped { r.last with agenda := [m] }, refusalMark := r.refusalMark.or (some f) } :=
      advance_refused hone
    rw [hone, withAgenda_refused] at hstep
    rw [hby]
    exact (advance_refused hstep).trans (by simp only [RunEnd.withAgenda, hdrop])

/-- The move is over once it has been made. -/
theorem advanceBy_agenda (r : RunEnd) (m : Move) : (r.advanceBy m).last.agenda = [] :=
  congrArg (fun r => r.last.agenda) (advance_withAgenda r m [])

theorem runUnder_agenda (moves : Schedule) (k : Nat) (s : State) : (runUnder moves k s).last.agenda = [] := by
  cases k with
  | zero => rfl
  | succ k => exact advanceBy_agenda _ _

theorem runFrom_schedule (moves : Schedule) (k : Nat) (s : State) (ms : List Move) :
    runFrom k { s with agenda := (List.range k).map moves ++ ms } = (runUnder moves k s).withAgenda ms := by
  induction k generalizing ms with
  | zero => rfl
  | succ k ih =>
    rw [List.range_succ, List.map_append, List.append_assoc, runFrom_succ]
    exact (congrArg RunEnd.advance (ih (moves k :: ms))).trans (advance_withAgenda _ _ _)

/-! ### The invariant along a run -/

theorem dropStopped_inv (h : s.inv = true) : s.dropStopped.inv = true := by
  rw [(dropStopped_eq s).1]
  exact h

theorem advance_inv {r : RunEnd} (h : r.last.inv = true) : r.advance.last.inv = true := by
  cases hstep : step r.last with
  | next t => rw [advance_next hstep]; exact everyStepKeepsTheInvariant _ _ h hstep
  | fault f => rw [advance_fault hstep]; exact dropStopped_inv h
  | refused f => rw [advance_refused hstep]; exact dropStopped_inv h

theorem runUnder_inv (moves : Schedule) (k : Nat) (h : s.inv = true) : (runUnder moves k s).last.inv = true := by
  induction k with
  | zero => exact h
  | succ k ih => exact advance_inv ih

/-! ### The RX events (spec R59) -/

/-- From `s` to `t` the events `evs` came in, and those consumed went from the front, in order and counted. -/
def RxAccounted (s t : State) (evs : List RxEvent) : Prop :=
  ∃ consumed, s.rx ++ evs = consumed ++ t.rx ∧ t.rxTaken = s.rxTaken + consumed.length

theorem rxAccounted_none (hrx : t.rx = s.rx) (htaken : t.rxTaken = s.rxTaken) : RxAccounted s t [] :=
  ⟨[], by rw [hrx, List.append_nil, List.nil_append], htaken⟩

theorem RxAccounted.trans {u : State} {evs evs' : List RxEvent} (h : RxAccounted s t evs) (h' : RxAccounted t u evs') :
    RxAccounted s u (evs ++ evs') := by
  obtain ⟨consumed, hrx, htaken⟩ := h
  obtain ⟨consumed', hrx', htaken'⟩ := h'
  refine ⟨consumed ++ consumed', ?_, ?_⟩
  · rw [← List.append_assoc, hrx, List.append_assoc, hrx', List.append_assoc]
  · rw [htaken', htaken, List.length_append, Nat.add_assoc]

theorem rxAccounted_of_unitWrites (h : UnitWrites s t) : RxAccounted s t [] := by
  cases h with
  | nothing | encode | decode => exact rxAccounted_none rfl rfl
  | goesOn _ _ hr | noFrame _ _ _ hr | frame _ _ hr => exact ⟨[_], by rw [hr, List.append_nil]; rfl, rfl⟩

theorem rxAccounted_of_otherEffect (h : OtherEffect s m t) : RxAccounted s t m.event?.toList := by
  cases h with
  | issue | read | reset => exact rxAccounted_none rfl rfl
  | deliver e => exact ⟨[], rfl, rfl⟩

theorem rxAccounted_of_step (ha : s.agenda = m :: ms) (h : step s = .next t) : RxAccounted s t m.event?.toList := by
  rcases step_writes h with ⟨hmoves, hunit⟩ | ⟨m', ms', ha', hother⟩
  · obtain rfl : m = .unit := by
      rcases hmoves with hnil | ⟨ms', hms'⟩
      · exact absurd (ha.symm.trans hnil) (List.cons_ne_nil m ms)
      · exact (List.cons.inj (ha.symm.trans hms')).1
    exact rxAccounted_of_unitWrites (s := { s with agenda := s.agenda.tail }) hunit
  · obtain ⟨rfl, -⟩ := List.cons.inj (ha.symm.trans ha')
    exact rxAccounted_of_otherEffect (s := { s with agenda := ms' }) hother

/-- A step that delivers does not stop, and a stopped one leaves the RX input as it was. -/
theorem rxAccounted_of_stop (ha : s.agenda = m :: ms) (h : ∀ t, step s ≠ .next t) :
    RxAccounted s s.dropStopped m.event?.toList := by
  have hevent : m.event? = none := by
    cases m with
    | unit | issue | read | reset => rfl
    | deliver e => exact absurd (by rw [step, nextMove, ha]; rfl) (h { s with agenda := ms, rx := s.rx ++ [e] })
  obtain ⟨hdrop, -⟩ := dropStopped_eq s
  rw [hevent]
  exact rxAccounted_none (by rw [hdrop]) (by rw [hdrop])

theorem rxAccounted_advance {r : RunEnd} (ha : r.last.agenda = m :: ms) :
    RxAccounted r.last r.advance.last m.event?.toList := by
  cases hstep : step r.last with
  | next t => rw [advance_next hstep]; exact rxAccounted_of_step ha hstep
  | fault f => rw [advance_fault hstep]; exact rxAccounted_of_stop ha (by simp [hstep])
  | refused f => rw [advance_refused hstep]; exact rxAccounted_of_stop ha (by simp [hstep])

theorem rxAccounted_runUnder (moves : Schedule) (k : Nat) (s : State) :
    RxAccounted s (runUnder moves k s).last (delivered moves k) := by
  induction k with
  | zero => exact rxAccounted_none rfl rfl
  | succ k ih =>
    rw [delivered_succ, runUnder_succ]
    exact ih.trans (rxAccounted_advance (m := moves k) (ms := [])
      (r := { runUnder moves k s with last := { (runUnder moves k s).last with agenda := [moves k] } }) rfl)

/-- Settles O47: the schedule's moves are the agenda, and the accounting of the RX input holds move by move. -/
theorem everyEventSequenceIsAdmitted : Obligations.EveryEventSequenceIsAdmitted := by
  intro s moves k ha
  obtain ⟨consumed, hrx, htaken⟩ := rxAccounted_runUnder moves k s
  have hcount : (runUnder moves k s).last.rxTaken - s.rxTaken = consumed.length := by omega
  refine ⟨?_, runUnder_inv moves k, by omega, ?_, ?_⟩
  · have hrun := runFrom_schedule moves k s []
    rw [List.append_nil, RunEnd.withAgenda, ← runUnder_agenda moves k s] at hrun
    exact hrun
  · rw [hcount, hrx, List.drop_left]
  · rw [hcount, ← List.length_append, hrx, List.length_append]
    omega

end Sys2Proof.Machine
end

section
/-! SUPPORT. Completion (spec R8, R99, R103): 22 events end an attempt, and a run fed with 22 for each command ends. -/

namespace Sys2Proof.Machine

variable {s t u v : State} {c : Command} {cs : List Command}

/-! ### With 22 events an attempt ends (spec R8) -/

theorem nextByte_ne_wait {stage : BitVec 3} {c : Cursor} {k : Byte → Cursor → AttemptResult × Nat}
    (hlen : 0 < c.evs.length) (hk : ∀ b c', c'.evs.length + 1 = c.evs.length → (k b c').1 ≠ .wait) :
    (nextByte stage c k).1 ≠ .wait := by
  obtain ⟨evs, i, nb⟩ := c
  match evs with
  | [] => exact absurd hlen (Nat.lt_irrefl 0)
  | .timeout :: _ | .fault :: _ => simp [nextByte]
  | .byte b :: es => exact hk b _ rfl

theorem nextBytes_ne_wait {stage : BitVec 3} {n : Nat} {c : Cursor} {k : List Byte → Cursor → AttemptResult × Nat}
    (hlen : n ≤ c.evs.length) (hk : ∀ bs c', c'.evs.length + n = c.evs.length → (k bs c').1 ≠ .wait) :
    (nextBytes stage n c k).1 ≠ .wait := by
  induction n generalizing c k with
  | zero => exact hk [] c rfl
  | succ n ih =>
    refine nextByte_ne_wait (by omega) fun b c' hc' => ?_
    exact ih (by omega) fun bs c'' hc'' => hk (b :: bs) c'' (by omega)

/-- 1 start, 1 type, at most 4 id and 15 payload bytes, 1 end. -/
theorem decodeAttempt_ne_wait (p : DlcPolicy) {evs : List RxEvent} (hlen : 22 ≤ evs.length) :
    (decodeAttempt p evs).1 ≠ .wait := by
  -- D_START
  refine nextByte_ne_wait (c := ⟨evs, 0, 0⟩) (by dsimp only; omega) fun b c₁ h₁ => ?_
  dsimp only at h₁ ⊢
  split
  case isTrue => simp
  -- D_TYPE
  refine nextByte_ne_wait (by omega) fun t c₂ h₂ => ?_
  split
  case isTrue => simp
  have hwidth := idWidth_le_four (typeExt t)
  have hdlc := (typeDlc t).isLt
  -- D_ID, D_DATA, D_END
  refine nextBytes_ne_wait (by omega) fun idb c₃ h₃ => ?_
  refine nextBytes_ne_wait (by omega) fun data c₄ h₄ => ?_
  refine nextByte_ne_wait (by omega) fun e c₅ h₅ => ?_
  split <;> simp

theorem fsm_of_attemptShows {a : AttemptResult} (h : attemptShows s t a) (ha : a ≠ .wait) : t.fsm = .idle := by
  cases a with
  | wait => exact absurd rfl ha
  | noFrame | frame => exact h.1

/-- A fed DECODE comes back to IDLE within 23 steps, having consumed at most 22 events (spec R99). -/
theorem decode_completes (ha : s.agenda = []) (hf : s.fsm = .idle) (hc : s.cmds = c :: cs) (ho : c.op = opDecode)
    (hlen : 22 ≤ s.rx.length) :
    ∃ n t, n ≤ 22 ∧ core.run (n + 1) s = .next t ∧ t.fsm = .idle ∧ t.cmds = cs ∧ t.rx = s.rx.drop n := by
  obtain ⟨t, hrun, hrx, -, hcmds, -, -, -, -, hshows⟩ := decoderStepsComposeIntoTheAttempt s c cs ha hf hc ho
  rw [Nat.add_comm] at hrun
  exact ⟨_, t, (attemptLengthBounds s.policy s.rx).1, hrun,
    fsm_of_attemptShows hshows (decodeAttempt_ne_wait s.policy hlen), hcmds, hrx⟩

/-! ### The first return to IDLE (spec R99) -/

theorem agenda_of_step (ha : s.agenda = []) (h : step s = .next t) : t.agenda = [] := by
  rcases step_writes h with ⟨-, hunit⟩ | ⟨m, ms, ha', -⟩
  · rw [agenda_of_unitWrites hunit, ha, List.tail_nil]
  · exact absurd (ha'.symm.trans ha) (List.cons_ne_nil m ms)

theorem step_of_core_run_succ {k : Nat} (h : core.run (k + 1) s = .next t) :
    ∃ u, step s = .next u ∧ core.run k u = .next t := by
  have hcore : core.step s = step s := rfl
  cases hstep : step s with
  | next u => exact ⟨u, rfl, (core_run_succ_of_step k hstep).symm.trans h⟩
  | fault f => simp [Host.Core.run, hcore, hstep] at h
  | refused r => simp [Host.Core.run, hcore, hstep] at h

theorem agenda_of_core_run {k : Nat} (ha : s.agenda = []) (h : core.run k s = .next t) : t.agenda = [] := by
  induction k generalizing s with
  | zero => cases h; exact ha
  | succ k ih =>
    obtain ⟨u, hstep, hrun⟩ := step_of_core_run_succ h
    exact ih (agenda_of_step ha hstep) hrun

/-- A run from a busy unit to IDLE passes a first IDLE state, and no command is taken before (spec R96). -/
theorem core_run_first_idle {k : Nat} (ha : u.agenda = []) (hf : u.fsm ≠ .idle) (hrun : core.run k u = .next v)
    (hv : v.fsm = .idle) :
    ∃ j t, 1 ≤ j ∧ j ≤ k ∧ core.run j u = .next t ∧ t.fsm = .idle ∧ t.cmds = u.cmds ∧
      ∀ i w, i < j → core.run i u = .next w → w.fsm ≠ .idle := by
  induction k generalizing u with
  | zero => cases hrun; exact absurd hv hf
  | succ k ih =>
    obtain ⟨u', hstep, hrun'⟩ := step_of_core_run_succ hrun
    obtain ⟨-, -, hheld⟩ := busyUnitAcceptsNoCommand u hf
    have hcmds := hheld u' ha hstep
    by_cases hidle : u'.fsm = .idle
    · refine ⟨1, u', le_rfl, by omega, core_run_succ_of_step 0 hstep, hidle, hcmds, fun i w hi hw => ?_⟩
      obtain rfl : i = 0 := by omega
      cases hw
      exact hf
    · obtain ⟨j, t, hj, hjk, ht, htidle, htcmds, hbusy⟩ := ih (agenda_of_step ha hstep) hidle hrun'
      refine ⟨j + 1, t, by omega, by omega, (core_run_succ_of_step j hstep).trans ht, htidle, htcmds.trans hcmds,
        fun i w hi hw => ?_⟩
      cases i with
      | zero => cases hw; exact hf
      | succ i => exact hbusy i w (by omega) ((core_run_succ_of_step i hstep).symm.trans hw)

/-- Settles O27: the acceptance, and then the first of at most 22 steps that comes back to IDLE. -/
theorem decodeCompletesWithinTwentyThreeSteps : Obligations.DecodeCompletesWithinTwentyThreeSteps := by
  intro s c cs ha hf hc ho hlen
  obtain ⟨n, v, hn, hrun, hv, -, -⟩ := decode_completes ha hf hc ho hlen
  have haccept := step_of_decode ha hf hc ho
  rw [core_run_succ_of_step n haccept] at hrun
  obtain ⟨j, t, hj, hjn, ht, hidle, hcmds, hbusy⟩ :=
    core_run_first_idle (u := { s with cmds := cs, fsm := .dStart, work := some clearedWork }) ha (by simp) hrun hv
  refine ⟨j + 1, t, by omega, by omega, (core_run_succ_of_step j haccept).trans ht, hidle, hcmds,
    fun i u hi hij hu => ?_⟩
  obtain ⟨i, rfl⟩ := Nat.exists_eq_add_of_le' hi
  exact hbusy i u (by omega) ((core_run_succ_of_step i haccept).symm.trans hu)

/-! ### A fed run (spec R103) -/

/-- The command is reserved (spec R83). -/
def reservedOp (c : Command) : Prop := c.op = 0b00#2 ∨ c.op = 0b11#2

theorem step_of_encode (ha : s.agenda = []) (hf : s.fsm = .idle) (hc : s.cmds = c :: cs) (ho : c.op = opEncode) :
    ∃ t, step s = .next t ∧ t.agenda = [] ∧ t.fsm = .idle ∧ t.cmds = cs ∧ t.rx = s.rx := by
  have hstep := step_of_command ha hf hc
  rw [decodeCommand_of_opEncode ho] at hstep
  cases hx : (encCheck c.id c.ext c.dlc c.plen).any with
  | true => exact ⟨_, hstep.trans (exec_encode_of_violation hf hx), ha, hf, rfl, rfl⟩
  | false => exact ⟨_, hstep.trans (exec_encode_of_pass hf hx), ha, hf, rfl, rfl⟩

/-- The oldest command of a fed IDLE unit is over after at most 23 steps and 22 events, with a refusal mark exactly when it
is reserved. -/
theorem command_completes (ha : s.agenda = []) (hf : s.fsm = .idle) (hc : s.cmds = c :: cs) (hlen : 22 ≤ s.rx.length) :
    ∃ k t mark, k ≤ 23 ∧ runFrom k s = { last := t, faultMark := none, refusalMark := mark } ∧ (mark ≠ none ↔ reservedOp c) ∧
      t.agenda = [] ∧ t.fsm = .idle ∧ t.cmds = cs ∧ s.rx.length ≤ t.rx.length + 22 := by
  rcases decodeCommand_cases c with ⟨ho, -⟩ | ⟨ho, -⟩ | hreserved
  · obtain ⟨t, hstep, hta, htf, htc, htrx⟩ := step_of_encode ha hf hc ho
    have hrun : core.run 1 s = .next t := core_run_succ_of_step 0 hstep
    exact ⟨1, t, none, by decide, (core_run_eq_next_iff _ _ _).mp hrun, by simp [reservedOp, ho, opEncode], hta, htf, htc,
      by rw [htrx]; exact Nat.le_add_right _ _⟩
  · obtain ⟨n, t, hn, hrun, hidle, hcmds, hrx⟩ := decode_completes ha hf hc ho hlen
    refine ⟨n + 1, t, none, by omega, (core_run_eq_next_iff _ _ _).mp hrun, by simp [reservedOp, ho, opDecode],
      agenda_of_core_run ha hrun, hidle, hcmds, ?_⟩
    rw [hrx, List.length_drop]
    omega
  · have ho : reservedOp c := hreserved.imp And.left And.left
    exact ⟨1, { s with cmds := cs }, some (.reservedCommand c.op), by decide, runFrom_one_of_reserved ha hf hc ho,
      by simp [ho], ha, hf, rfl, Nat.le_add_right _ _⟩

theorem fedRun_ends (ha : s.agenda = []) (hf : s.fsm = .idle) (hlen : 22 * s.cmds.length ≤ s.rx.length) :
    ∃ k t mark, k ≤ 23 * s.cmds.length ∧ runFrom k s = { last := t, faultMark := none, refusalMark := mark } ∧
      (mark ≠ none ↔ ∃ c ∈ s.cmds, reservedOp c) ∧ t.agenda = [] ∧ t.fsm = .idle ∧ t.cmds = [] := by
  induction hc : s.cmds generalizing s with
  | nil => exact ⟨0, s, none, by simp, rfl, by simp, ha, hf, hc⟩
  | cons c cs ih =>
    rw [hc, List.length_cons] at hlen
    obtain ⟨k, t, mark, hk, hrun, hmark, hta, htf, htc, htrx⟩ := command_completes ha hf hc (by omega)
    obtain ⟨k', t', mark', hk', hrun', hmark', hend⟩ := ih hta htf (by rw [htc]; omega) htc
    refine ⟨k + k', t', mark.or mark', by rw [List.length_cons]; omega, ?_, ?_, hend⟩
    · rw [runFrom_add, hrun, hrun', RunEnd.andThen, Option.none_or]
    · rw [List.exists_mem_cons_iff, ← hmark, ← hmark', ne_eq, Option.or_eq_none_iff, not_and_or]

/-- Settles O46: by induction on the commands, each of which is over within its 23 steps. -/
theorem everyFedRunEndsAndShowsItsMarks : Obligations.EveryFedRunEndsAndShowsItsMarks := by
  intro s ha hf hlen
  obtain ⟨k, t, mark, hk, hrun, hmark, hta, htf, htc⟩ := fedRun_ends ha hf hlen
  refine ⟨k, hk, ?_, ?_, ?_⟩
  · simp [hrun, RunEnd.ended, State.ended, hta, htf, htc]
  · rw [hrun, RunEnd.observe]
  · rw [hrun, RunEnd.observe]
    exact hmark

end Sys2Proof.Machine
end

section
/-! SUPPORT. An RX source that delivers for ever (spec R53; log 25): what stands behind the events an attempt reads changes
nothing of it. -/

namespace Sys2Proof.Machine

variable {s t u v : State} {fs : List RxEvent}

/-! ### `decodeAttempt` with more events behind (spec R152) -/

/-- The cursor with more events behind those it holds. -/
def Cursor.append (c : Cursor) (fs : List RxEvent) : Cursor := { c with evs := c.evs ++ fs }

/-- An attempt that has ended does not look at the events behind. -/
def IgnoresMore (fs : List RxEvent) (k : Cursor → AttemptResult × Nat) : Prop :=
  ∀ c, (k c).1 ≠ .wait → k (c.append fs) = k c

theorem ignoresMore_nextByte {stage : BitVec 3} {k : Byte → Cursor → AttemptResult × Nat}
    (h : ∀ b, IgnoresMore fs (k b)) : IgnoresMore fs fun c => nextByte stage c k := by
  rintro ⟨evs, i, nb⟩ hended
  match evs with
  | [] => exact absurd rfl hended
  | .timeout :: _ | .fault :: _ => rfl
  | .byte b :: es => exact h b { evs := es, i := i + 1, nb := nb + 1 } hended

theorem ignoresMore_nextBytes {stage : BitVec 3} {n : Nat} {k : List Byte → Cursor → AttemptResult × Nat}
    (h : ∀ bs, IgnoresMore fs (k bs)) : IgnoresMore fs fun c => nextBytes stage n c k := by
  induction n generalizing k with
  | zero => exact h []
  | succ n ih => exact ignoresMore_nextByte fun b => ih fun bs => h (b :: bs)

theorem decodeAttempt_append {p : DlcPolicy} {evs : List RxEvent} (hended : (decodeAttempt p evs).1 ≠ .wait) :
    decodeAttempt p (evs ++ fs) = decodeAttempt p evs := by
  refine ignoresMore_nextByte (fs := fs) (fun b => ?_) { evs := evs, i := 0, nb := 0 } hended
  split
  case isTrue => exact fun c _ => rfl
  refine ignoresMore_nextByte fun t => ?_
  split
  case isTrue => exact fun c _ => rfl
  refine ignoresMore_nextBytes fun idb => ignoresMore_nextBytes fun data => ignoresMore_nextByte fun e => ?_
  split <;> exact fun c _ => rfl

/-! ### The unit's step with more events behind -/

/-- The state with more events at the end of the RX input. -/
def State.rxBehind (s : State) (fs : List RxEvent) : State := { s with rx := s.rx ++ fs }

theorem byteRule_rxBehind (f : Fsm) (b : Byte) (w : Work) (s : State) (fs : List RxEvent) :
    byteRule f b w (s.rxBehind fs) = (byteRule f b w s).rxBehind fs := by
  cases f with
  | idle => rfl
  | dStart => simp only [byteRule, onStartByte]; split <;> rfl
  | dType =>
    by_cases hreject : s.policy = .reject ∧ dlcMax < (typeDlc b).toNat
    · rw [byteRule, onTypeByte_of_reject (s := s.rxBehind fs) hreject, onTypeByte_of_reject hreject]
      rfl
    · rw [byteRule, onTypeByte_of_pass (s := s.rxBehind fs) hreject, onTypeByte_of_pass hreject]
      rfl
  | dId => simp only [byteRule, onIdByte]; split <;> rfl
  | dData => simp only [byteRule, onDataByte]; split <;> rfl
  | dEnd => simp only [byteRule, onEndByte]; split <;> rfl

theorem step_rxBehind_of_idle (ha : s.agenda = []) (hf : s.fsm = .idle) (h : step (s.rxBehind fs) = .next t) :
    ∃ u, step s = .next u ∧ t = u.rxBehind fs := by
  cases hc : s.cmds with
  | nil =>
    obtain rfl := Host.Outcome.next.inj ((step_of_noCommand (s := s.rxBehind fs) ha hf hc).symm.trans h)
    exact ⟨s, step_of_noCommand ha hf hc, rfl⟩
  | cons c cs =>
    have hstep := step_of_command ha hf hc
    have hstep' := step_of_command (s := s.rxBehind fs) ha hf hc
    rcases decodeCommand_cases c with ⟨-, hd⟩ | ⟨-, hd⟩ | hreserved
    · rw [hd] at hstep hstep'
      cases hx : (encCheck c.id c.ext c.dlc c.plen).any with
      | true =>
        have ht := h.symm.trans (hstep'.trans (exec_encode_of_violation hf hx))
        exact ⟨_, hstep.trans (exec_encode_of_violation hf hx), Host.Outcome.next.inj ht⟩
      | false =>
        have ht := h.symm.trans (hstep'.trans (exec_encode_of_pass hf hx))
        exact ⟨_, hstep.trans (exec_encode_of_pass hf hx), Host.Outcome.next.inj ht⟩
    · rw [hd] at hstep hstep'
      have ht := h.symm.trans (hstep'.trans (exec_decode_of_idle hf))
      exact ⟨_, hstep.trans (exec_decode_of_idle hf), Host.Outcome.next.inj ht⟩
    · have ho : reservedOp c := hreserved.imp And.left And.left
      cases h.symm.trans (hstep'.trans (exec_decodeCommand_of_reserved ho _))

theorem step_rxBehind_of_event {ev : RxEvent} {es : List RxEvent} (ha : s.agenda = []) (hf : s.fsm ≠ .idle)
    (hrx : s.rx = ev :: es) (h : step (s.rxBehind fs) = .next t) : ∃ u, step s = .next u ∧ t = u.rxBehind fs := by
  have hrx' : (s.rxBehind fs).rx = ev :: (es ++ fs) := by rw [State.rxBehind, hrx, List.cons_append]
  cases hw : s.work with
  | none => cases h.symm.trans (step_of_work_none ha hf hw hrx')
  | some w =>
    cases ev with
    | timeout =>
      have ht := h.symm.trans (step_of_timeout ha rfl hf hw hrx')
      exact ⟨_, step_of_timeout ha rfl hf hw hrx, Host.Outcome.next.inj ht⟩
    | fault =>
      have ht := h.symm.trans (step_of_fault ha rfl hf hw hrx')
      exact ⟨_, step_of_fault ha rfl hf hw hrx, Host.Outcome.next.inj ht⟩
    | byte b =>
      have ht := h.symm.trans (step_of_byte ha rfl hf hw hrx')
      exact ⟨_, step_of_byte ha rfl hf hw hrx, (Host.Outcome.next.inj ht).trans (byteRule_rxBehind s.fsm b w (s.rxTake es) fs)⟩

/-- A step that does not wait for an event is the same step with more events behind. -/
theorem step_rxBehind (ha : s.agenda = []) (hrx : s.rx ≠ []) (h : step (s.rxBehind fs) = .next t) :
    ∃ u, step s = .next u ∧ t = u.rxBehind fs := by
  by_cases hf : s.fsm = .idle
  · exact step_rxBehind_of_idle ha hf h
  · obtain ⟨ev, es, hev⟩ := List.exists_cons_of_ne_nil hrx
    exact step_rxBehind_of_event ha hf hev h

/-! ### The streamed run -/

/-- A run's end without a mark. -/
def unmarked (s : State) : RunEnd := { last := s, faultMark := none, refusalMark := none }

theorem advanceBy_deliver (ha : s.agenda = []) (e : RxEvent) :
    (unmarked s).advanceBy (.deliver e) = unmarked (s.rxBehind [e]) := by
  have hstep : step { s with agenda := [.deliver e] } = .next { s with agenda := [], rx := s.rx ++ [e] } := rfl
  refine (advance_next hstep).trans ?_
  rw [← ha]
  rfl

theorem advanceBy_unit (ha : s.agenda = []) (h : step s = .next t) : (unmarked s).advanceBy .unit = unmarked t := by
  have hsame : { s with agenda := [] } = s := by rw [← ha]
  have hstep : step { s with agenda := [.unit] } = .next { t with agenda := [] } := by
    rw [step_of_unit (s := { s with agenda := [.unit] }) rfl]
    show withAgenda [] (step { s with agenda := [] }) = _
    rw [hsame, h, withAgenda_next]
  refine (advance_next hstep).trans ?_
  rw [← agenda_of_step ha h]
  rfl

/-- `k` steps with every event at hand from the start are `k` steps each of which gets its event just before. -/
theorem runUnder_streamed {M k : Nat} (src : Nat → RxEvent) (ha : s.agenda = []) (hk : k ≤ M)
    (h : core.run k (s.rxBehind ((List.range M).map src)) = .next t) :
    ∃ u, runUnder (streamed src) (2 * k) s = unmarked u ∧ u.agenda = [] ∧
      t = u.rxBehind (((List.range M).map src).drop k) := by
  induction k generalizing t with
  | zero =>
    cases h
    refine ⟨s, ?_, ha, rfl⟩
    show unmarked { s with agenda := [] } = unmarked s
    rw [← ha]
  | succ k ih =>
    rw [core_run_succ] at h
    cases hv : core.run k (s.rxBehind ((List.range M).map src)) with
    | fault f => rw [hv] at h; cases h
    | refused r => rw [hv] at h; cases h
    | next v =>
      rw [hv] at h
      obtain ⟨u, hrun, hua, rfl⟩ := ih (by omega) hv
      have hdrop : ((List.range M).map src).drop k = [src k] ++ ((List.range M).map src).drop (k + 1) := by
        rw [List.drop_eq_getElem_cons (by simpa using hk)]
        simp
      have hsplit : u.rxBehind (((List.range M).map src).drop k) =
          (u.rxBehind [src k]).rxBehind (((List.range M).map src).drop (k + 1)) := by
        rw [hdrop]
        simp only [State.rxBehind, List.append_assoc]
      have hstep : step (u.rxBehind (((List.range M).map src).drop k)) = .next t := h
      rw [hsplit] at hstep
      obtain ⟨u', hstep', rfl⟩ := step_rxBehind (s := u.rxBehind [src k]) hua (by simp [State.rxBehind]) hstep
      refine ⟨u', ?_, agenda_of_step (s := u.rxBehind [src k]) hua hstep', rfl⟩
      rw [Nat.mul_succ, runUnder_succ, runUnder_succ, hrun, streamed_even, streamed_odd, advanceBy_deliver hua,
        advanceBy_unit (s := u.rxBehind [src k]) hua hstep']

theorem delivered_streamed (src : Nat → RxEvent) (k : Nat) :
    delivered (streamed src) (2 * k) = (List.range k).map src := by
  induction k with
  | zero => rfl
  | succ k ih =>
    rw [Nat.mul_succ, delivered_succ, delivered_succ, ih, streamed_even, streamed_odd, List.range_succ, List.map_append]
    simp [Move.event?]

theorem attemptShows_of_rxBehind {gs : List RxEvent} {a : AttemptResult} (ha : a ≠ .wait)
    (h : attemptShows (s.rxBehind gs) (t.rxBehind fs) a) : attemptShows s t a := by
  cases a with
  | wait => exact absurd rfl ha
  | noFrame | frame => exact h

/-- Settles O48: the attempt on the waiting events and the first 23 of the source, which 22 already decide, streamed. -/
theorem infiniteSourceFeedsTheAttempt : Obligations.InfiniteSourceFeedsTheAttempt := by
  intro src s c cs r n ha hf hc ho hattempt
  have hended : r ≠ .wait := by
    have h := decodeAttempt_ne_wait s.policy (evs := s.rx ++ (List.range 22).map src) (by simp)
    rwa [hattempt] at h
  have hn : n ≤ 22 := by
    have h := (attemptLengthBounds s.policy (s.rx ++ (List.range 22).map src)).1
    rwa [hattempt] at h
  have hattempt' : decodeAttempt s.policy (s.rx ++ (List.range 23).map src) = (r, n) := by
    rw [List.range_succ, List.map_append, ← List.append_assoc, decodeAttempt_append (by rw [hattempt]; exact hended),
      hattempt]
  obtain ⟨t, hrun, -, htaken, hcmds, htx, henc, -, -, hshows⟩ :=
    decoderStepsComposeIntoTheAttempt (s.rxBehind ((List.range 23).map src)) c cs ha hf hc ho
  have hpair : decodeAttempt (s.rxBehind ((List.range 23).map src)).policy (s.rxBehind ((List.range 23).map src)).rx =
      (r, n) := hattempt'
  rw [hpair] at hrun htaken hshows
  obtain ⟨u, hstreamed, -, rfl⟩ := runUnder_streamed src ha (by omega) hrun
  have hshown := attemptShows_of_rxBehind hended hshows
  obtain ⟨-, -, -, hrx, -⟩ := everyEventSequenceIsAdmitted s (streamed src) (2 * (1 + n)) ha
  have htaken' : u.rxTaken = s.rxTaken + n := htaken
  have hcount : (unmarked u).last.rxTaken - s.rxTaken = n := Nat.sub_eq_of_eq_add' htaken'
  rw [hstreamed, hcount, delivered_streamed] at hrx
  exact ⟨u, hstreamed, fsm_of_attemptShows hshown hended, hcmds, htx, henc, htaken', hrx, hshown⟩

end Sys2Proof.Machine
end
